-- ==== Sys2Proof/Word.lean ====
section
/-! DEFINITION. The engine's word types (spec/00_scope.md R9, R13, R14): a byte is 8 bits, the
datapath and every register the host port presents are 64 bits, and nothing is signed. -/

namespace Sys2Proof

/-- A value of the 64-bit datapath and of the host's register port (R20, R30). -/
abbrev Word := BitVec 64

/-- One byte of memory (R9, R60). -/
abbrev Byte := BitVec 8

end Sys2Proof
end

