-- ==== Sys2Proof/Syntax.lean ====
section
/-! DEFINITION. The six commands of the engine (spec/30_encoding.md R91, spec/opcode_table.json). A
command has no operand fields: its operands stand in fixed registers (R93, R94). -/

namespace Sys2Proof

/-- One constructor per row of spec/opcode_table.json. -/
inductive Instr where
  /-- HASH32 (R115): the 32-bit FNV-1a digest of the data span, into DIGEST. -/
  | hash32
  /-- HASH64 (R116): the 64-bit FNV-1a digest of the data span, into DIGEST. -/
  | hash64
  /-- INSERT32 (R161): sets the bit of every window's 32-bit digest in the bit array. -/
  | insert32
  /-- INSERT64 (R162): sets the bit of every window's 64-bit digest in the bit array. -/
  | insert64
  /-- SETBIT (R134): sets bit BITIDX of the bit array. -/
  | setbit
  /-- TESTBIT (R137): reads bit BITIDX of the bit array into STATUS.TBIT. -/
  | testbit
deriving DecidableEq, Repr

end Sys2Proof
end

