-- ==== Sys2Proof/WellFormed.lean ====
section
/-! DEFINITION. The fields of a command word (format CMD8, spec/30_encoding.md R90) and what a legal
command word's fields satisfy (R91, R95). A command itself has no field to check. -/

namespace Sys2Proof

/-- A command word cut into the four fields of R90, high bits first. -/
structure CmdFields where
  /-- Bits 63:8. -/
  zero56 : BitVec 56
  /-- Bits 7:4. -/
  zero4 : BitVec 4
  /-- Bit 3: the digest width, 0 = 32 bits, 1 = 64 bits. -/
  w : BitVec 1
  /-- Bits 2:0: the operation. -/
  op : BitVec 3
deriving DecidableEq, Repr

/-- R90: the operation codes that are assigned are 1 to 4. -/
def CmdFields.opAssigned (f : CmdFields) : Bool := decide (1 ≤ f.op.toNat ∧ f.op.toNat ≤ 4)

/-- R95: a set W bit with OP 3 or 4 is reserved, since the bit-array view has no width. -/
def CmdFields.widthAllowed (f : CmdFields) : Bool := decide (f.op.toNat = 3 ∨ f.op.toNat = 4 → f.w = 0)

/-- The fields of one of the six legal command words (R90, R91, R95). -/
def CmdFields.wf (f : CmdFields) : Bool :=
  decide (f.zero56 = 0) && decide (f.zero4 = 0) && f.opAssigned && f.widthAllowed

/-- Every command is well formed: it has no operand fields (R93). -/
def Instr.wf : Instr → Bool
  | .hash32 => true
  | .hash64 => true
  | .insert32 => true
  | .insert64 => true
  | .setbit => true
  | .testbit => true

end Sys2Proof
end

