-- ==== Sys2Proof/Decode.lean ====
section
/-! DEFINITION. Decoding a command word and, after it, encoding a command (spec/30_encoding.md R90 to
R96). A command word is the 64-bit value written to register 8: there is no instruction memory, so no
byte order of instructions exists (R63, R78). -/

namespace Sys2Proof

/-- What a command word decodes to (R92): a command, or `Illegal`. -/
inductive Decoded where
  | command (i : Instr)
  | illegal
deriving DecidableEq, Repr

/-- The fields of a command word (R90). -/
def fieldsOf (v : Word) : CmdFields where
  zero56 := v.extractLsb' 8 56
  zero4 := v.extractLsb' 4 4
  w := v.extractLsb' 3 1
  op := v.extractLsb' 0 3

/-- The command word with the given fields (R90). -/
def wordOf (f : CmdFields) : Word := f.zero56 ++ f.zero4 ++ f.w ++ f.op

/-- Which command the fields name (R91); everything else is reserved (R95). -/
def decodeFields (f : CmdFields) : Decoded :=
  if f.zero56 ≠ 0 ∨ f.zero4 ≠ 0 then .illegal
  else if f.op = 1 then .command (if f.w = 0 then .hash32 else .hash64)
  else if f.op = 2 then .command (if f.w = 0 then .insert32 else .insert64)
  else if f.op = 3 then (if f.w = 0 then .command .setbit else .illegal)
  else if f.op = 4 then (if f.w = 0 then .command .testbit else .illegal)
  else .illegal

/-- R92: total on 64-bit values, and it reads nothing but the value. -/
def decode (v : Word) : Decoded := decodeFields (fieldsOf v)

/-- The fields R91 gives a command. -/
def encodeFields : Instr → CmdFields
  | .hash32 => { zero56 := 0, zero4 := 0, w := 0, op := 1 }
  | .hash64 => { zero56 := 0, zero4 := 0, w := 1, op := 1 }
  | .insert32 => { zero56 := 0, zero4 := 0, w := 0, op := 2 }
  | .insert64 => { zero56 := 0, zero4 := 0, w := 1, op := 2 }
  | .setbit => { zero56 := 0, zero4 := 0, w := 0, op := 3 }
  | .testbit => { zero56 := 0, zero4 := 0, w := 0, op := 4 }

/-- The command word of a command (R91). -/
def encode (i : Instr) : Word := wordOf (encodeFields i)

/-- The 64-bit command word whose low `nbits` bits are those of `w`, every bit above them 0. -/
def tableWord (nbits w : Nat) : Word := BitVec.ofNat 64 (w % 2 ^ nbits)

/-- The command the decoder reads from a row of spec/opcode_table.json laid out as bits. -/
def decodeTableWord (nbits w : Nat) : Option Instr :=
  match decode (tableWord nbits w) with
  | .command i => some i
  | .illegal => none

end Sys2Proof
end

