-- ==== Sys2Proof/Config.lean ====
section
/-! DEFINITION. What an implementation fixes for the life of the engine (spec/00_scope.md R7, R8, R36),
and the one free value of the model: no proof can see its value. -/

namespace Sys2Proof

/-- The range R7 gives for `AW`: it keeps the capacity `8 * BA_LEN` below `2 ^ 64`. -/
abbrev Params.Legal (aw : Nat) : Prop := 1 ≤ aw ∧ aw ≤ 61

/-- The two implementation parameters. They are not state (R36): no step changes them. -/
structure Params where
  /-- `AW`, the width in bits of addresses and lengths (R7). -/
  aw : Nat
  /-- `LEGACY_BOUND`: whether the window loop skips the last legal window (R8). -/
  legacyBound : Bool
  /-- There is no engine of another width. -/
  legal : Params.Legal aw
deriving DecidableEq, Repr

/-- This hardware: `AW = 32` (R7) and `LEGACY_BOUND = false` (R8). -/
def Config.params : Params := { aw := 32, legacyBound := false, legal := by decide }

/-- FREE VALUE (notes/assumptions/9.md). Which of the bits a command is still to set in a byte another
agent finds already set when it reads that byte during the command (spec/70_reset_and_hazards.md R239:
"some subset of the masks"); one fresh draw for each such read. It has no body anywhere. -/
opaque Config.foreignSubset : Nat → Byte

end Sys2Proof
end

