-- ==== Sys2Proof/Machine/State.lean ====
section
/-! DEFINITION. The state of the machine as plain data: the nine host-visible registers
(spec/10_state.md R20), the hidden registers of the datapath (R30 to R32), the memory and what the
platform puts at its addresses (spec/20_memory.md R60, R70), and the other agents' side: what the host
still has to do at the port and what it has been answered (spec/70_reset_and_hazards.md R248). -/

namespace Sys2Proof.Machine

/-- The outcome of a command, as STATUS.ERR reports it (spec/60_exceptions.md R200). -/
inductive Err where
  | none
  | invalidArgument
  | outOfRange
  | illegalCommand
deriving DecidableEq, Repr

/-- What stands at an address of the platform (spec/20_memory.md R68, R70). -/
inductive RegionKind where
  /-- Plain memory: a read returns the stored byte and changes nothing. -/
  | plain
  /-- No byte exists there: it was never mapped, or its buffer is gone (spec/70_reset_and_hazards.md R238). -/
  | absent
  /-- A device, whose reads or writes have side effects. -/
  | device
deriving DecidableEq, Repr

/-- A range of the address space, `len` bytes from `base`, and what stands there. -/
structure Region where
  base : Nat
  len : Nat
  kind : RegionKind
deriving DecidableEq, Repr

/-- What the outside world does to the machine, one item at a time (spec/00_scope.md R10,
spec/44_host_port.md R185, R193). -/
inductive HostOp where
  /-- `RegRead(n)` at the register port (R180). -/
  | regRead (n : Nat)
  /-- `RegWrite(n, v)` at the register port (R181); with `n = 8` it issues the command `v` (R184). -/
  | regWrite (n : Nat) (v : Word)
  /-- The host reads a byte of its memory between commands (R193). -/
  | memRead (a : Nat)
  /-- The host writes a byte of its memory between commands (R193). -/
  | memWrite (a : Nat) (v : Byte)
  /-- The platform changes what stands at a range of addresses: a buffer is allocated, freed or moved (R238). -/
  | setRegion (r : Region)
  /-- `Reset` while no command is in progress (R230). -/
  | reset
  /-- The command `v` is issued and `Reset` arrives before it has ended (R232). -/
  | issueWithReset (v : Word)
  /-- The command `v` is issued and, before it has ended, another agent writes `b` at `a` (R239). -/
  | issueWithForeignWrite (v : Word) (a : Nat) (b : Byte)
  /-- The command `v` is issued and, before it has ended, another agent reads the byte at `a` (R239). -/
  | issueWithForeignRead (v : Word) (a : Nat)
deriving DecidableEq, Repr

/-- An answer an agent outside the engine has had (R248). -/
inductive Observation where
  /-- `RegRead(n)` returned `v`. -/
  | reg (n : Nat) (v : Word)
  /-- The host's read of its memory at `a` returned `b`. -/
  | mem (a : Nat) (b : Byte)
  /-- Another agent's read at `a` during a command returned `b`. -/
  | foreign (a : Nat) (b : Byte)
deriving DecidableEq, Repr

/-- One operation of the engine at its memory port (spec/20_memory.md R61). -/
inductive Access where
  | read (a : Nat)
  | write (a : Nat) (b : Byte)
deriving DecidableEq, Repr

/-- The hidden registers of the datapath: no agent can read them, and every command writes each one it
reads before it reads it (spec/10_state.md R30 to R34). -/
structure Hidden where
  /-- ACC, the accumulator of the FNV-1a unit (R30). -/
  acc : Word
  /-- OFF, the offset of the current window; AW bits (R31). -/
  off : Word
  /-- IDX, the position inside the current window or span; AW bits (R31). -/
  idx : Word
  /-- INDEX, the bit index in use (R32). -/
  index : Word
  /-- BYTE, the byte read from the bit array (R32). -/
  byte : Byte
deriving DecidableEq, Repr

/-- Memory as (address, byte) pairs in one canonical form (`Memory.wf` in Machine/Ops.lean). -/
abbrev Memory := List Host.Cell

/-- The machine. -/
structure State where
  /-- Register 0, BA_BASE; bits 63:AW are 0 (R20, R21, R28). -/
  baBase : Word
  /-- Register 1, BA_LEN; bits 63:AW are 0 (R20, R21, R28). -/
  baLen : Word
  /-- Register 2, DATA_BASE; bits 63:AW are 0 (R20, R22, R28). -/
  dataBase : Word
  /-- Register 3, DATA_LEN; bits 63:AW are 0 (R20, R22, R28). -/
  dataLen : Word
  /-- Register 4, WSIZE; bits 63:AW are 0 (R20, R23, R28). -/
  wsize : Word
  /-- Register 5, BITIDX, a full 64-bit register (R24). -/
  bitIdx : Word
  /-- Register 6, DIGEST (R25). -/
  digest : Word
  /-- Register 7, STATUS, field ERR (R26). -/
  err : Err
  /-- Register 7, STATUS, field TBIT (R26). -/
  tbit : Bool
  /-- ACC, OFF, IDX, INDEX, BYTE (R30 to R32). -/
  hidden : Hidden
  /-- The bytes of the one address space (R60). -/
  mem : Memory
  /-- What the platform puts at its addresses, the newest change first (R68, R70, R238). -/
  platform : List Region
  /-- What the host and the other agents are still to do, the next item first (R185, R248). -/
  pending : List HostOp
  /-- The answers they have had, the newest first (R248). -/
  observed : List Observation
  /-- The engine's operations at the memory port, the newest first (R61, R74). -/
  bus : List Access
  /-- The model's own counter of free values drawn so far (notes/assumptions/9.md). -/
  draws : Nat
deriving DecidableEq, Repr

/-- Why the machine stops with a fault. The engine itself never faults: its errors are next states with
STATUS.ERR set (R206), and its memory port never fails (R73). -/
inductive Fault where
  /-- Raised by the host's, or another agent's, own access to an address that does not exist: at or above
  `2 ^ AW` (R60, R61) or where the platform has no byte (R70). Safe: the machine stops. -/
  | noSuchAddress (a : Nat)
deriving DecidableEq, Repr

/-- Why the model gives an event no meaning. Every constructor is safe: the machine stops. -/
inductive Refusal where
  /-- An instruction that has no meaning yet; no arm of `exec` answers it. -/
  | notModelled (mnemonic : String)
  /-- Raised by a command that is to read a data span reaching past `2 ^ AW` (R70, U3). -/
  | dataSpanWraps
  /-- Raised by a command that is to use a bit array reaching past `2 ^ AW` (R70, U3). -/
  | bitArrayWraps
  /-- Raised by a command that is to read a data span with a byte that is not plain memory (R68, R70, U3, U8). -/
  | dataSpanNotPlain
  /-- Raised by a command that is to use a bit array with a byte that is not plain memory (R68, R70, U3, U8). -/
  | bitArrayNotPlain
  /-- Raised by an INSERT that is to process a window when its two spans share a byte (R71, U2). -/
  | spansOverlap
  /-- Raised by `RegRead` and `RegWrite` of a register number of 9 or above (R183, U5). -/
  | unassignedRegister (n : Nat)
  /-- Raised by `Reset` during a command (R232, U4). -/
  | resetDuringCommand
  /-- Raised by another agent's write into the data span or the bit array during a command (R239, U1). -/
  | foreignWriteDuringCommand
  /-- Raised by the host's, or another agent's, own access to a device, of which the spec says nothing (R68, U3). -/
  | deviceAccess (a : Nat)
deriving DecidableEq, Repr

/-- The hidden registers at reset: the spec leaves them unspecified (R38), the model names 0
(notes/assumptions/2.md). -/
def Hidden.reset : Hidden := { acc := 0, off := 0, idx := 0, index := 0, byte := 0 }

/-- The machine right after reset (R38): every host-visible register 0, no memory listed, all of the
address space plain memory, and the host yet to do anything. -/
def State.reset : State where
  baBase := 0
  baLen := 0
  dataBase := 0
  dataLen := 0
  wsize := 0
  bitIdx := 0
  digest := 0
  err := .none
  tbit := false
  hidden := Hidden.reset
  mem := []
  platform := []
  pending := []
  observed := []
  bus := []
  draws := 0

end Sys2Proof.Machine
end

