-- ==== Sys2Proof/Machine/Ops.lean ====
section
/-! DEFINITION. The named operations every command is built from: memory as the memory port sees it
(spec/20_memory.md R60, R61), the map of the platform and the premises the spec puts on spans (R68, R70,
R71), and the start, the success, the error and the reset (spec/60_exceptions.md R206, spec/70_reset_and_hazards.md
R231, R248). -/

namespace Sys2Proof.Machine

/-! ## Memory -/

/-- What a byte nobody has written reads as: 0 (DESIGN CHOICE, notes/assumptions/3.md). -/
def Memory.unlisted : Byte := 0

/-- The byte at address `a` (R61). -/
def Memory.read : Memory → Nat → Byte
  | [], _ => Memory.unlisted
  | c :: m, a => if c.1 = a then c.2 else Memory.read m a

/-- Removes the entries of address `a`. -/
def Memory.erase (m : Memory) (a : Nat) : Memory := m.filter fun c => decide (c.1 ≠ a)

/-- Puts the entry `(a, v)` in its place, over the old entry of `a` if there is one. -/
def Memory.insert : Memory → Nat → Byte → Memory
  | [], a, v => [(a, v)]
  | c :: m, a, v =>
    if a < c.1 then (a, v) :: c :: m
    else if c.1 = a then (a, v) :: m
    else c :: Memory.insert m a v

/-- Makes `v` the byte at `a` and changes no other byte (R61); keeps the canonical form. -/
def Memory.write (m : Memory) (a : Nat) (v : Byte) : Memory :=
  if v = Memory.unlisted then Memory.erase m a else Memory.insert m a v

/-- The addresses listed rise strictly. -/
def Memory.rising : Memory → Bool
  | [] => true
  | c :: m => m.all (fun d => decide (c.1 < d.1)) && Memory.rising m

/-- The canonical form: addresses strictly rising, no entry equal to what an unlisted address reads as. -/
def Memory.wf (m : Memory) : Bool :=
  Memory.rising m && m.all fun c => decide (c.2 ≠ Memory.unlisted)

/-- The `len` bytes from `base` on, in increasing address order (R22, R63). -/
def Memory.bytes (m : Memory) (base len : Nat) : List Byte :=
  (List.range len).map fun k => Memory.read m (base + k)

/-! ## The memory port -/

/-- `MemRead(a, 1)` (R61): the byte, and the state with the operation recorded. -/
def memRead (a : Nat) (s : State) : Byte × State :=
  (s.mem.read a, { s with bus := .read a :: s.bus })

/-- `MemWrite(a, 1, v)` (R61), recorded too. -/
def memWrite (a : Nat) (v : Byte) (s : State) : State :=
  { s with mem := s.mem.write a v, bus := .write a v :: s.bus }

/-! ## The platform's map -/

/-- Whether a region holds an address. -/
def Region.holds (r : Region) (a : Nat) : Bool := decide (r.base ≤ a ∧ a < r.base + r.len)

/-- What stands at an address: as the newest change that names the address says, plain memory where
none does (R60, R69; notes/assumptions/4.md). -/
def kindAt : List Region → Nat → RegionKind
  | [], _ => .plain
  | r :: rs, a => if r.holds a then r.kind else kindAt rs a

/-- Whether every address from `lo` up to but not including `hi` is plain memory: what a region leaves
of the range lies below it and above it. -/
def rangePlain : List Region → Nat → Nat → Bool
  | [], _, _ => true
  | r :: rs, lo, hi =>
    (decide (r.kind = .plain) || decide (min hi (r.base + r.len) ≤ max lo r.base))
      && rangePlain rs lo (min hi r.base) && rangePlain rs (max lo (r.base + r.len)) hi

/-! ## The premises on spans -/

/-- The premise of R70 on the span of `len` bytes from `base` (nothing is asked of an empty one): `none`
if it holds, else the refusal. -/
def spanRefusal (p : Params) (rs : List Region) (base len : Nat) (wraps notPlain : Refusal) : Option Refusal :=
  if len = 0 then none
  else if 2 ^ p.aw < base + len then some wraps
  else if rangePlain rs base (base + len) then none
  else some notPlain

/-- R70 for a command that reads the data span. -/
def dataRefusal (p : Params) (s : State) : Option Refusal :=
  spanRefusal p s.platform s.dataBase.toNat s.dataLen.toNat .dataSpanWraps .dataSpanNotPlain

/-- R70 for a command that uses the bit array. -/
def bitsRefusal (p : Params) (s : State) : Option Refusal :=
  spanRefusal p s.platform s.baBase.toNat s.baLen.toNat .bitArrayWraps .bitArrayNotPlain

/-- Whether two spans share a byte (R71; either may be empty). -/
def spansShareByte (base len base' len' : Nat) : Bool :=
  decide (0 < len ∧ 0 < len' ∧ base < base' + len' ∧ base' < base + len)

/-- R71 for an INSERT. -/
def overlapRefusal (s : State) : Option Refusal :=
  if spansShareByte s.dataBase.toNat s.dataLen.toNat s.baBase.toNat s.baLen.toNat then some .spansOverlap
  else none

/-- All the premises of an INSERT that is to process a window (R70, R71). -/
def insertRefusal (p : Params) (s : State) : Option Refusal :=
  (dataRefusal p s).or ((bitsRefusal p s).or (overlapRefusal s))

/-- Runs a command whose premises are judged by `r`. -/
def underPremise (r : Option Refusal) (t : State) : Host.Outcome State Fault Refusal :=
  match r with
  | some e => .refused e
  | none => .next t

/-! ## The start and the end of a command, and reset -/

/-- The start of a command that runs: OFF and IDX are 0 (R31). -/
def beginCommand (s : State) : State := { s with hidden := { s.hidden with off := 0, idx := 0 } }

/-- `raise E` (R206): the shared error entry. It writes STATUS.ERR and nothing else: there is no handler,
no saved register and no mode. -/
def raise (e : Err) (s : State) : State := { s with err := e }

/-- The successful end of a command, `STATUS.ERR <- 0` (R248). There is no return from an error (R209):
the next command runs as after a success. -/
def succeed (s : State) : State := { s with err := .none }

/-- The event `Reset` while idle (R231): every register as in `State.reset`; memory, the platform and
the other agents' side are not touched. -/
def applyReset (s : State) : State :=
  { State.reset with
    mem := s.mem, platform := s.platform, pending := s.pending, observed := s.observed, bus := s.bus,
    draws := s.draws }

/-- Records an answer an agent outside the engine has had. -/
def observe (o : Observation) (s : State) : State := { s with observed := o :: s.observed }

end Sys2Proof.Machine
end

