-- ==== Sys2Proof/Machine/Operands.lean ====
section
/-! DEFINITION. Where a command's operands come from and what they mean: the width of an operand
register (spec/10_state.md R28), the bit array's capacity and its index decoder (spec/41_bitarray.md R130, R131),
and the window offsets (spec/42_insert.md R152). -/

namespace Sys2Proof.Machine

/-- What an AW-bit register stores of a value written to it: `v mod 2 ^ AW` (R28). -/
def truncate (p : Params) (v : Word) : Word := BitVec.ofNat 64 (v.toNat % 2 ^ p.aw)

/-- `cap(L)`: the number of bits of an array of `len` bytes (R16, R21). -/
def capacity (len : Nat) : Nat := 8 * len

/-- The offset in the array of the byte of bit index `i` (R131). -/
def byteOf (i : Nat) : Nat := i / 8

/-- The position in its byte of bit index `i`, bit 0 the least significant (R131). -/
def posOf (i : Nat) : Nat := i % 8

/-- The one-hot mask of bit index `i` (R131). -/
def maskOf (i : Nat) : Byte := 1#8 <<< posOf i

/-- The memory address of the byte of bit index `i` in an array at `base` (R131). -/
def addrOf (base i : Nat) : Nat := base + byteOf i

/-- The reduction of a digest to a bit index (R153): the remainder of natural numbers. -/
def reduce (d : Word) (cap : Nat) : Word := BitVec.ofNat 64 (d.toNat % cap)

/-- The number of windows of size `w` of `n` bytes (R152, R156). -/
def windowCount (p : Params) (n w : Nat) : Nat :=
  if n < w then 0 else if p.legacyBound then n - w else n - w + 1

/-- `offsets(n, w)` in increasing order (R152). -/
def offsets (p : Params) (n w : Nat) : List Nat := List.range (windowCount p n w)

/-- SETBIT's and TESTBIT's range check (R134, R135): a comparison of natural numbers. -/
def indexOutOfRange (s : State) : Bool := decide (capacity s.baLen.toNat ≤ s.bitIdx.toNat)

/-- INSERT's precondition fails (R151). -/
def insertArgumentInvalid (s : State) : Bool := decide (s.wsize = 0 ∨ s.baLen = 0)

end Sys2Proof.Machine
end

