-- ==== Sys2Proof/Machine/Flags.lean ====
section
/-! DEFINITION. The status register (spec/10_state.md R26, R29; spec/60_exceptions.md R200). The engine has no
carry, zero, sign or overflow flag. -/

namespace Sys2Proof.Machine

/-- The code of an error in STATUS.ERR (R200). -/
def Err.code : Err → BitVec 2
  | .none => 0
  | .invalidArgument => 1
  | .outOfRange => 2
  | .illegalCommand => 3

/-- STATUS as the port reads it: bits 63:3 zero, TBIT in bit 2, ERR in bits 1:0 (R26, R180). -/
def statusOf (e : Err) (t : Bool) : Word := 0#61 ++ BitVec.ofBool t ++ e.code

/-- Register 7 (R20, R26). -/
def State.status (s : State) : Word := statusOf s.err s.tbit

/-- `STATUS.TBIT <- b` (R137). -/
def setTbit (b : Bool) (s : State) : State := { s with tbit := b }

end Sys2Proof.Machine
end

