-- ==== Sys2Proof/Machine/BitArray.lean ====
section
/-! DEFINITION. The bit-array view (spec/41_bitarray.md): the set and the test sequence and the commands
SETBIT and TESTBIT. The view has no state of its own (R130). -/

namespace Sys2Proof.Machine

/-- `INDEX <- i` and `BYTE <- MemRead(addrOf(base, INDEX), 1)`, the start of both sequences (R132, R136). -/
def fetchByte (base : Nat) (i : Word) (s : State) : State :=
  let r := memRead (addrOf base i.toNat) s
  { r.2 with hidden := { r.2.hidden with index := i, byte := r.1 } }

/-- `setBitSeq(base, i)` (R132): one read, then one write of the same byte with the bit set (OR, never a
toggle: R133). -/
def setBitSeq (base : Nat) (i : Word) (s : State) : State :=
  let t := fetchByte base i s
  memWrite (addrOf base t.hidden.index.toNat) (t.hidden.byte ||| maskOf t.hidden.index.toNat) t

/-- `testBitSeq(base, i)` (R136): the state after it, and the bit read. -/
def testBitSeq (base : Nat) (i : Word) (s : State) : Bool × State :=
  let t := fetchByte base i s
  (t.hidden.byte.getLsbD (posOf t.hidden.index.toNat), t)

/-- SETBIT's steps with its range check and premise (R134). -/
def setbitSeq (p : Params) (s : State) : Host.Outcome State Fault Refusal :=
  if indexOutOfRange s then .next (raise .outOfRange s)
  else underPremise (bitsRefusal p s) (succeed (setBitSeq s.baBase.toNat s.bitIdx (beginCommand s)))

/-- TESTBIT's steps with its range check and premise (R137). -/
def testbitSeq (p : Params) (s : State) : Host.Outcome State Fault Refusal :=
  if indexOutOfRange s then .next (raise .outOfRange s)
  else
    let r := testBitSeq s.baBase.toNat s.bitIdx (beginCommand s)
    underPremise (bitsRefusal p s) (succeed (setTbit r.1 r.2))

/-- SETBIT (R134). -/
def execSetbit (s : State) : Host.Outcome State Fault Refusal := setbitSeq Config.params s

/-- TESTBIT (R137). -/
def execTestbit (s : State) : Host.Outcome State Fault Refusal := testbitSeq Config.params s

end Sys2Proof.Machine
end

