-- ==== Sys2Proof/Machine/Hash.lean ====
section
/-! DEFINITION. The hash family (spec/40_hash.md): the FNV-1a unit and the commands HASH32 and HASH64. -/

namespace Sys2Proof.Machine

/-- The digest width `N` (R110). -/
inductive Width where
  | w32
  | w64
deriving DecidableEq, Repr

/-- `N` in bits (R110). -/
def Width.bits : Width → Nat
  | .w32 => 32
  | .w64 => 64

/-- `BASIS_N` (R110). -/
def Width.basis : Width → Nat
  | .w32 => 2166136261
  | .w64 => 14695981039346656037

/-- `PRIME_N` (R110). -/
def Width.prime : Width → Nat
  | .w32 => 16777619
  | .w64 => 1099511628211

/-- The accumulator before any byte (R112); bits 63:N are 0 (R30). -/
def fnvBasis (N : Width) : Word := BitVec.ofNat 64 N.basis

/-- `fnvStep(N, a, b)` (R111, R112): XOR the zero-extended byte, then multiply modulo `2 ^ N`. -/
def fnvStep (N : Width) (a : Word) (b : Byte) : Word :=
  BitVec.ofNat 64 ((a.toNat ^^^ b.toNat) * N.prime % 2 ^ N.bits)

/-- `fnv1a(N, bs)` (R112): the left fold of the step over the bytes in order. -/
def fnv1a (N : Width) (bs : List Byte) : Word := bs.foldl (fnvStep N) (fnvBasis N)

/-- One turn of the loop of R114: read the byte at `base + IDX`, fold it into ACC, advance IDX. -/
def hashStep (N : Width) (base : Nat) (s : State) : State :=
  let r := memRead (base + s.hidden.idx.toNat) s
  { r.2 with hidden := { r.2.hidden with
      acc := fnvStep N r.2.hidden.acc r.1
      idx := r.2.hidden.idx + 1 } }

/-- The loop of R114 with `k` bytes still to read. -/
def hashLoop (N : Width) (base : Nat) : Nat → State → State
  | 0, s => s
  | k + 1, s => hashLoop N base k (hashStep N base s)

/-- `hashSpan(N, base, len)` (R114); the digest is left in ACC. -/
def hashSpan (N : Width) (base len : Nat) (s : State) : State :=
  hashLoop N base len { s with hidden := { s.hidden with acc := fnvBasis N, idx := 0 } }

/-- `DIGEST <- ACC`: the digest, zero-extended (R25, R115, R116). -/
def writeDigest (s : State) : State := { s with digest := s.hidden.acc }

/-- A HASH command of width `N` on the data span (R115, R116). -/
def hashSeq (p : Params) (N : Width) (s : State) : Host.Outcome State Fault Refusal :=
  underPremise (dataRefusal p s)
    (succeed (writeDigest (hashSpan N s.dataBase.toNat s.dataLen.toNat (beginCommand s))))

/-- HASH32 (R115). -/
def execHash32 (s : State) : Host.Outcome State Fault Refusal := hashSeq Config.params .w32 s

/-- HASH64 (R116). -/
def execHash64 (s : State) : Host.Outcome State Fault Refusal := hashSeq Config.params .w64 s

end Sys2Proof.Machine
end

