-- ==== Sys2Proof/Machine/Insert.lean ====
section
/-! DEFINITION. The window loop (spec/42_insert.md) and the commands INSERT32 and INSERT64. -/

namespace Sys2Proof.Machine

/-- The body of the window loop of R154 at the present OFF: hash the window, reduce the digest, set the
bit, and advance OFF (R155). -/
def insertStep (N : Width) (dataBase w baBase cap : Nat) (s : State) : State :=
  let t := hashSpan N (dataBase + s.hidden.off.toNat) w s
  let u := setBitSeq baBase (reduce t.hidden.acc cap) t
  { u with hidden := { u.hidden with off := u.hidden.off + 1 } }

/-- The window loop with `k` windows still to process (R155, R156). -/
def insertLoop (N : Width) (dataBase w baBase cap : Nat) : Nat → State → State
  | 0, s => s
  | k + 1, s => insertLoop N dataBase w baBase cap k (insertStep N dataBase w baBase cap s)

/-- All the windows of the data span; the operands are sampled at the start (R94). -/
def insertWindows (p : Params) (N : Width) (s : State) : State :=
  insertLoop N s.dataBase.toNat s.wsize.toNat s.baBase.toNat (capacity s.baLen.toNat)
    (windowCount p s.dataLen.toNat s.wsize.toNat) (beginCommand s)

/-- `insertSeq(N)` (R154): the preconditions first (R151); then the premises; then the windows. R71 is asked of
every INSERT, R70 of one that is to touch a span (notes/assumptions/5.md). -/
def insertSeq (p : Params) (N : Width) (s : State) : Host.Outcome State Fault Refusal :=
  if insertArgumentInvalid s then .next (raise .invalidArgument s)
  else
    underPremise
      (if windowCount p s.dataLen.toNat s.wsize.toNat = 0 then overlapRefusal s else insertRefusal p s)
      (succeed (insertWindows p N s))

/-- INSERT32 (R161). -/
def execInsert32 (s : State) : Host.Outcome State Fault Refusal := insertSeq Config.params .w32 s

/-- INSERT64 (R162). -/
def execInsert64 (s : State) : Host.Outcome State Fault Refusal := insertSeq Config.params .w64 s

end Sys2Proof.Machine
end

