-- ==== Sys2Proof/Machine/Dispatch.lean ====
section
/-! DEFINITION. Which meaning each command has (spec/30_encoding.md R91). -/

namespace Sys2Proof.Machine

def exec (i : Instr) (s : State) : Host.Outcome State Fault Refusal :=
  match i with
  | .hash32 => Sys2Proof.Machine.execHash32 s
  | .hash64 => Sys2Proof.Machine.execHash64 s
  | .insert32 => Sys2Proof.Machine.execInsert32 s
  | .insert64 => Sys2Proof.Machine.execInsert64 s
  | .setbit => Sys2Proof.Machine.execSetbit s
  | .testbit => Sys2Proof.Machine.execTestbit s

end Sys2Proof.Machine
end

