-- ==== Sys2Proof/Machine/Command.lean ====
section
/-! DEFINITION. The commands of an engine with any parameters (spec/00_scope.md R7, R8). With the parameters of
this hardware they are `exec` (`runCommand_params` in Laws/Exec.lean). -/

namespace Sys2Proof.Machine

/-- The command `i` in an engine with the parameters `p` (R91). -/
def runCommand (p : Params) (i : Instr) (s : State) : Host.Outcome State Fault Refusal :=
  match i with
  | .hash32 => hashSeq p .w32 s
  | .hash64 => hashSeq p .w64 s
  | .insert32 => insertSeq p .w32 s
  | .insert64 => insertSeq p .w64 s
  | .setbit => setbitSeq p s
  | .testbit => testbitSeq p s

end Sys2Proof.Machine
end

