-- ==== Sys2Proof/Machine/Port.lean ====
section
/-! DEFINITION. The host's register port and the other things the outside world does, for an engine with the
parameters `p` (spec/44_host_port.md R180 to R185, spec/70_reset_and_hazards.md R230 to R239). -/

namespace Sys2Proof.Machine

/-- The value register `n` presents to the port (R180); `none` for an unassigned number (R183). -/
def regValue (s : State) : Nat → Option Word
  | 0 => some s.baBase
  | 1 => some s.baLen
  | 2 => some s.dataBase
  | 3 => some s.dataLen
  | 4 => some s.wsize
  | 5 => some s.bitIdx
  | 6 => some s.digest
  | 7 => some s.status
  | 8 => some 0
  | _ => none

/-- `RegRead(n)` (R180): no effect but the answer. -/
def regRead (n : Nat) (s : State) : Host.Outcome State Fault Refusal :=
  match regValue s n with
  | some v => .next (observe (.reg n v) s)
  | none => .refused (.unassignedRegister n)

/-- The issue of the command word `v` (R184): decode it and run the command to its end, or report an
illegal word (R203). -/
def issue (p : Params) (v : Word) (s : State) : Host.Outcome State Fault Refusal :=
  match decode v with
  | .command i => runCommand p i s
  | .illegal => .next (raise .illegalCommand s)

/-- `RegWrite(n, v)` (R181). -/
def regWrite (p : Params) (n : Nat) (v : Word) (s : State) : Host.Outcome State Fault Refusal :=
  match n with
  | 0 => .next { s with baBase := truncate p v }
  | 1 => .next { s with baLen := truncate p v }
  | 2 => .next { s with dataBase := truncate p v }
  | 3 => .next { s with dataLen := truncate p v }
  | 4 => .next { s with wsize := truncate p v }
  | 5 => .next { s with bitIdx := v }
  | 6 => .next s
  | 7 => .next s
  | 8 => issue p v s
  | _ => .refused (.unassignedRegister n)

/-- An access of an agent outside the engine to address `a`: `t` if plain memory stands there. -/
def atPlainAddress (p : Params) (a : Nat) (s : State) (t : Host.Outcome State Fault Refusal) :
    Host.Outcome State Fault Refusal :=
  if 2 ^ p.aw ≤ a then .fault (.noSuchAddress a)
  else
    match kindAt s.platform a with
    | .plain => t
    | .absent => .fault (.noSuchAddress a)
    | .device => .refused (.deviceAccess a)

/-- The host makes `b` the byte at `a`. -/
def hostWrite (a : Nat) (b : Byte) (s : State) : State := { s with mem := s.mem.write a b }

/-- The address lies in the data span or in the bit array. -/
def inSpans (s : State) (a : Nat) : Bool :=
  decide (s.dataBase.toNat ≤ a ∧ a < s.dataBase.toNat + s.dataLen.toNat) ||
    decide (s.baBase.toNat ≤ a ∧ a < s.baBase.toNat + s.baLen.toNat)

/-- The byte another agent's read finds during a command that turns `old` into `new` (R239): the old
byte with some subset of the bits the command sets in it (none where it sets none). -/
def foreignByte (draw : Nat) (old new : Byte) : Byte := old ||| (Config.foreignSubset draw &&& new)

/-- What another agent's read at `a` during a command from `s` to `t` leaves: the answer, and one more
free value drawn. -/
def foreignRead (a : Nat) (s t : State) : State :=
  observe (.foreign a (foreignByte s.draws (s.mem.read a) (t.mem.read a))) { t with draws := s.draws + 1 }

/-- What an outcome becomes when its next state is changed further. -/
def mapNext (f : State → State) :
    Host.Outcome State Fault Refusal → Host.Outcome State Fault Refusal
  | .next t => .next (f t)
  | .fault e => .fault e
  | .refused e => .refused e

/-- One item of what the outside world does. -/
def perform (p : Params) (op : HostOp) (s : State) : Host.Outcome State Fault Refusal :=
  match op with
  | .regRead n => regRead n s
  | .regWrite n v => regWrite p n v s
  | .memRead a => atPlainAddress p a s (.next (observe (.mem a (s.mem.read a)) s))
  | .memWrite a b => atPlainAddress p a s (.next (hostWrite a b s))
  | .setRegion r => .next { s with platform := r :: s.platform }
  | .reset => .next (applyReset s)
  | .issueWithReset _ => .refused .resetDuringCommand
  | .issueWithForeignWrite v a b =>
    atPlainAddress p a s (if inSpans s a then .refused .foreignWriteDuringCommand else issue p v (hostWrite a b s))
  | .issueWithForeignRead v a => atPlainAddress p a s (mapNext (foreignRead a s) (issue p v s))

/-- Takes the next item off what the host is still to do. -/
def popPending (rest : List HostOp) (s : State) : State := { s with pending := rest }

end Sys2Proof.Machine
end

