-- ==== Sys2Proof/Machine/Step.lean ====
section
/-! DEFINITION. One step of the machine: the next item the host, or another agent, does. The engine
fetches nothing (spec/10_state.md R33) and does nothing between port operations (spec/70_reset_and_hazards.md R231). -/

namespace Sys2Proof.Machine

/-- One step of an engine with the parameters `p`. With nothing to do it is idle and its state stays as it is
(notes/assumptions/1.md). -/
def stepAt (p : Params) (s : State) : Host.Outcome State Fault Refusal :=
  match s.pending with
  | [] => .next s
  | op :: rest => perform p op (popPending rest s)

/-- One step of this hardware (R7, R8). -/
def step (s : State) : Host.Outcome State Fault Refusal := stepAt Config.params s

/-- `s` with the command word `w` the next thing the host writes to CMD: the engine takes its command
from a register write and from nowhere else (R33, R184). -/
def State.withFetchWord (s : State) (nbits w : Nat) : State :=
  { s with pending := .regWrite 8 (tableWord nbits w) :: s.pending }

end Sys2Proof.Machine
end

