-- ==== Sys2Proof/Machine/Calls.lean ====
section
/-! DEFINITION. The document's calls as sequences of port operations (spec/44_host_port.md R187 to R192):
what the host puts at the port for each. -/

namespace Sys2Proof.Machine

/-- The HASH command word of a width (R91). -/
def hashWord : Width → Word
  | .w32 => 0x01
  | .w64 => 0x09

/-- The INSERT command word of a width (R91). -/
def insertWord : Width → Word
  | .w32 => 0x02
  | .w64 => 0x0A

/-- `hash32` (R187) and `hash64` (R188) of the `len` bytes from `base`: the last answer is the digest. -/
def callHash (N : Width) (base len : Word) : List HostOp :=
  [.regWrite 2 base, .regWrite 3 len,
    .regWrite 8 (hashWord N), .regRead 6]

/-- `insertBloom32` (R189) and `insertBloom64` (R190): the last answer is STATUS. -/
def callInsert (N : Width) (baBase baLen dataBase dataLen wsize : Word) : List HostOp :=
  [.regWrite 0 baBase, .regWrite 1 baLen, .regWrite 2 dataBase, .regWrite 3 dataLen, .regWrite 4 wsize,
    .regWrite 8 (insertWord N), .regRead 7]

/-- `setBit(buffer, bitIndex)` (R191): the last answer is STATUS. -/
def callSetBit (baBase baLen bitIndex : Word) : List HostOp :=
  [.regWrite 0 baBase, .regWrite 1 baLen, .regWrite 5 bitIndex, .regWrite 8 0x03, .regRead 7]

/-- The operand writes and the command of `testBit` (R191) and of a query (R192). -/
def issueTestBit (baBase baLen bitIndex : Word) : List HostOp :=
  [.regWrite 0 baBase, .regWrite 1 baLen, .regWrite 5 bitIndex, .regWrite 8 0x04]

/-- `testBit(buffer, bitIndex)` (R191): STATUS is read twice, for `e` and then for `bit`, one operation a line
(R97). -/
def callTestBit (baBase baLen bitIndex : Word) : List HostOp :=
  issueTestBit baBase baLen bitIndex ++ [.regRead 7, .regRead 7]

/-- The host's part of a membership query (R192): the index of the digest `d` in an array of `baLen`
bytes, by the reduction of R153. -/
def queryIndex (d baLen : Word) : Word := reduce d (capacity baLen.toNat)

/-- `query32` and `query64` (R192): the hash call, and then, with the digest `d` it answered, the test of
the bit, with one read of STATUS; the host computes the index between the two. -/
def callQuery (N : Width) (baBase baLen window windowLen d : Word) : List HostOp :=
  callHash N window windowLen ++ issueTestBit baBase baLen (queryIndex d baLen) ++ [.regRead 7]

/-- `STATUS[1:0]` of an answer (R189, R191). -/
def errField (v : Word) : Nat := (v.extractLsb' 0 2).toNat

/-- `STATUS[2]` of an answer (R191, R192). -/
def tbitField (v : Word) : Bool := v.getLsbD 2

end Sys2Proof.Machine
end

