-- ==== Sys2Proof/Safety.lean ====
section
/-! DEFINITION. The terms claims are stated in: the host's premises on the spans (spec/20_memory.md R68 to R71),
the invariant of the machine, equality of all that can be observed (spec/10_state.md R34,
spec/70_reset_and_hazards.md R248), and names for the parts of the memory port's traffic. -/

namespace Sys2Proof.Machine

/-- The address lies in the data span (R22). -/
abbrev InDataSpan (s : State) (a : Nat) : Prop :=
  s.dataBase.toNat ≤ a ∧ a < s.dataBase.toNat + s.dataLen.toNat

/-- The address lies in the bit array (R21). -/
abbrev InBitArray (s : State) (a : Nat) : Prop :=
  s.baBase.toNat ≤ a ∧ a < s.baBase.toNat + s.baLen.toNat

/-- The premise of R70 on the data span, with the parameters `p`: unless it is empty it ends inside the address
space, and every byte of it is plain memory. -/
def DataSpanOkAt (p : Params) (s : State) : Prop :=
  s.dataLen ≠ 0 →
    s.dataBase.toNat + s.dataLen.toNat ≤ 2 ^ p.aw ∧ ∀ a, InDataSpan s a → kindAt s.platform a = .plain

/-- The premise of R70 on the bit array. -/
def BitArrayOkAt (p : Params) (s : State) : Prop :=
  s.baLen ≠ 0 →
    s.baBase.toNat + s.baLen.toNat ≤ 2 ^ p.aw ∧ ∀ a, InBitArray s a → kindAt s.platform a = .plain

/-- The premise of R71: the two spans share no byte. -/
def SpansDisjoint (s : State) : Prop := ∀ a, InDataSpan s a → ¬InBitArray s a

/-- All the premises of an INSERT (R70, R71). -/
def InsertOkAt (p : Params) (s : State) : Prop := DataSpanOkAt p s ∧ BitArrayOkAt p s ∧ SpansDisjoint s

/-- The premises on this hardware. -/
abbrev DataSpanOk (s : State) : Prop := DataSpanOkAt Config.params s

abbrev BitArrayOk (s : State) : Prop := BitArrayOkAt Config.params s

abbrev InsertOk (s : State) : Prop := InsertOkAt Config.params s

/-- The HASH command of a width (R91). -/
def hashOf : Width → Instr
  | .w32 => .hash32
  | .w64 => .hash64

/-- The INSERT command of a width (R91). -/
def insertOf : Width → Instr
  | .w32 => .insert32
  | .w64 => .insert64

/-- The bytes of the window of the data span at offset `o` (R150). -/
def windowAt (s : State) (o : Nat) : List Byte := s.mem.bytes (s.dataBase.toNat + o) s.wsize.toNat

/-- Bit index `i` of the array at `base` (R64). -/
def bitAt (m : Memory) (base i : Nat) : Bool := (m.read (base + i / 8)).getLsbD (i % 8)

/-- The end state `t` R159 gives a successful INSERT of width `N` from `s` that processes the windows at the
offsets `window` allows: every bit of the array that was 1 or is such a window's is 1 and no other; every byte
outside the array, and all else but STATUS.ERR, the hidden registers and the accesses made, is as before. -/
def InsertEndStateFor (window : Nat → Prop) (N : Width) (s t : State) : Prop :=
  t = { s with mem := t.mem, err := .none, hidden := t.hidden, bus := t.bus } ∧
    (∀ k, k < s.baLen.toNat → ∀ j, j < 8 →
      ((t.mem.read (s.baBase.toNat + k)).getLsbD j = true ↔
        (s.mem.read (s.baBase.toNat + k)).getLsbD j = true ∨
          ∃ o, window o ∧
            (fnv1a N (windowAt s o)).toNat % (8 * s.baLen.toNat) = 8 * k + j)) ∧
    ∀ a, ¬InBitArray s a → t.mem.read a = s.mem.read a

/-- The same with the complete enumeration, every window that fits (R152). -/
abbrev InsertEndState (N : Width) (s t : State) : Prop :=
  InsertEndStateFor (fun o => o + s.wsize.toNat ≤ s.dataLen.toNat) N s t

/-- The access is a write. -/
def Access.isWrite : Access → Bool
  | .read _ => false
  | .write _ _ => true

/-- The address of an access. -/
def Access.addr : Access → Nat
  | .read a => a
  | .write a _ => a

/-- The states differ at most in the hidden registers, which nothing can observe (R34). -/
def SameButHidden (s t : State) : Prop := t = { s with hidden := t.hidden }

/-- The outcomes are of one kind, with one reason, and their next states differ at most in the hidden registers. -/
def OutcomesSameButHidden : Host.Outcome State Fault Refusal → Host.Outcome State Fault Refusal → Prop
  | .next s, .next t => SameButHidden s t
  | .fault e, .fault f => e = f
  | .refused e, .refused f => e = f
  | .next _, .fault _ => False
  | .next _, .refused _ => False
  | .fault _, .next _ => False
  | .fault _, .refused _ => False
  | .refused _, .next _ => False
  | .refused _, .fault _ => False

/-- The invariant of an engine with the parameters `p`: memory is in its canonical form and inside the address
space (R60), and bits 63:AW of the five AW-bit registers (R28) and of the two AW-bit counters (R31) are 0. -/
structure State.InvAt (p : Params) (s : State) : Prop where
  memWf : s.mem.wf = true
  memInSpace : ∀ c ∈ s.mem, c.1 < 2 ^ p.aw
  baBase : s.baBase.toNat < 2 ^ p.aw
  baLen : s.baLen.toNat < 2 ^ p.aw
  dataBase : s.dataBase.toNat < 2 ^ p.aw
  dataLen : s.dataLen.toNat < 2 ^ p.aw
  wsize : s.wsize.toNat < 2 ^ p.aw
  off : s.hidden.off.toNat < 2 ^ p.aw
  idx : s.hidden.idx.toNat < 2 ^ p.aw

/-- The invariant of this hardware. -/
abbrev State.Inv (s : State) : Prop := s.InvAt Config.params

end Sys2Proof.Machine
end

