-- ==== Sys2Proof/Certificates/Slice0/Obligations.lean ====
section
/-! DEFINITION. The statements for the provers. Each docstring names the rule of spec/ it formalises, or the
entry of the assumption log it rests on; INFERENCE marks a rule the spec itself derives from others ("[derived: from
...]"), whose statement has basis 'derived'. -/

open Sys2Proof Sys2Proof.Machine

/-! ## Encoding -/

/-- R91: the six command words, each written out from R90's fields, decode to the six commands; the words
around them do not decode. -/
def Obligations.SixCommandWordsDecode : Prop :=
  decode 0x0000000000000001 = .command .hash32 ∧ decode 0x0000000000000009 = .command .hash64 ∧
    decode 0x0000000000000002 = .command .insert32 ∧ decode 0x000000000000000A = .command .insert64 ∧
    decode 0x0000000000000003 = .command .setbit ∧ decode 0x0000000000000004 = .command .testbit ∧
    decode 0x0000000000000000 = .illegal ∧ decode 0x000000000000000B = .illegal ∧
    decode 0x000000000000000C = .illegal ∧ decode 0x0000000000000101 = .illegal ∧
    decode 0x8000000000000001 = .illegal

/-- R91, R92: decoding and encoding agree on all 64-bit values. A value decodes to a command exactly when it is
that command's word, and to `Illegal` exactly when it is none of the six. -/
def Obligations.DecodeExactlyUndoesEncode : Prop :=
  (∀ (v : Word) (i : Instr), decode v = .command i ↔ v = encode i) ∧
    (∀ v : Word, decode v = .illegal ↔
      v ≠ 0x01 ∧ v ≠ 0x09 ∧ v ≠ 0x02 ∧ v ≠ 0x0A ∧ v ≠ 0x03 ∧ v ≠ 0x04) ∧
    encode .hash32 = 0x01 ∧ encode .hash64 = 0x09 ∧ encode .insert32 = 0x02 ∧ encode .insert64 = 0x0A ∧
    encode .setbit = 0x03 ∧ encode .testbit = 0x04

/-- R95, R203: every other value is reserved, any value with a 1 in bits 63:4 among them, and writing a reserved
value to CMD sets STATUS.ERR to IllegalCommand and does nothing else. -/
def Obligations.ReservedWordOnlyReportsIllegalCommand : Prop :=
  (∀ v : Word, 16 ≤ v.toNat → decode v = .illegal) ∧
    (∀ v : Word, v ∈ ([0x00, 0x08, 0x05, 0x06, 0x07, 0x0D, 0x0E, 0x0F, 0x0B, 0x0C] : List Word) →
      decode v = .illegal) ∧
    ∀ (s : State) (v : Word) (rest : List HostOp), s.pending = .regWrite 8 v :: rest →
      v ≠ 0x01 → v ≠ 0x09 → v ≠ 0x02 → v ≠ 0x0A → v ≠ 0x03 → v ≠ 0x04 →
      step s = .next { s with pending := rest, err := .illegalCommand }

/-! ## The step and the port -/

/-- R184: when the host's next operation writes the word of a command to CMD, the step runs exactly that command,
on the state without that operation; around it the step does nothing. -/
def Obligations.StepRunsTheIssuedCommand : Prop :=
  ∀ (s : State) (v : Word) (rest : List HostOp) (i : Instr),
    s.pending = .regWrite 8 v :: rest → decode v = .command i → i.wf = true →
      step s = exec i { s with pending := rest }

/-- R231: the engine does nothing until the host performs an operation. That a step with nothing to do answers next
with the same state is the model's form of waiting (notes/assumptions/1.md, DEDUCED). -/
def Obligations.IdleMachineStaysAsItIs : Prop := ∀ s : State, s.pending = [] → step s = .next s

/-- R180: the value each register presents to a read, and that a read changes nothing (the answer is recorded as
the host's). -/
def Obligations.RegisterReadAnswersAndChangesNothing : Prop :=
  ∀ (s : State) (rest : List HostOp) (n : Nat) (v : Word),
    (n, v) ∈ [(0, s.baBase), (1, s.baLen), (2, s.dataBase), (3, s.dataLen), (4, s.wsize), (5, s.bitIdx),
      (6, s.digest), (7, BitVec.ofNat 64 (4 * s.tbit.toNat + s.err.code.toNat)), (8, 0)] →
    step { s with pending := .regRead n :: rest } =
      .next { s with pending := rest, observed := .reg n v :: s.observed }

/-- R181: what a write to each register does; to DIGEST and STATUS nothing; to CMD it issues the command. -/
def Obligations.RegisterWriteStoresOrIssues : Prop :=
  ∀ (s : State) (rest : List HostOp) (v : Word),
    step { s with pending := .regWrite 0 v :: rest } =
      .next { s with pending := rest, baBase := BitVec.ofNat 64 (v.toNat % 2 ^ 32) } ∧
    step { s with pending := .regWrite 1 v :: rest } =
      .next { s with pending := rest, baLen := BitVec.ofNat 64 (v.toNat % 2 ^ 32) } ∧
    step { s with pending := .regWrite 2 v :: rest } =
      .next { s with pending := rest, dataBase := BitVec.ofNat 64 (v.toNat % 2 ^ 32) } ∧
    step { s with pending := .regWrite 3 v :: rest } =
      .next { s with pending := rest, dataLen := BitVec.ofNat 64 (v.toNat % 2 ^ 32) } ∧
    step { s with pending := .regWrite 4 v :: rest } =
      .next { s with pending := rest, wsize := BitVec.ofNat 64 (v.toNat % 2 ^ 32) } ∧
    step { s with pending := .regWrite 5 v :: rest } = .next { s with pending := rest, bitIdx := v } ∧
    step { s with pending := .regWrite 6 v :: rest } = .next { s with pending := rest } ∧
    step { s with pending := .regWrite 7 v :: rest } = .next { s with pending := rest } ∧
    step { s with pending := .regWrite 8 v :: rest } = issue Config.params v { s with pending := rest }

/-- R28: an operand register reads back what was written, modulo 2^32 in the five AW-bit registers and whole in
BITIDX. -/
def Obligations.OperandRegisterReadsBackTruncated : Prop :=
  ∀ (s : State) (rest : List HostOp) (n : Nat) (v : Word), n ≤ 5 →
    ∃ t, Sys2Proof.core.run 2 { s with pending := .regWrite n v :: .regRead n :: rest } = .next t ∧
      t.observed = .reg n (if n = 5 then v else BitVec.ofNat 64 (v.toNat % 2 ^ 32)) :: s.observed

/-- R183: a register number of 9 or above has no meaning and is refused. -/
def Obligations.UnassignedRegisterIsRefused : Prop :=
  ∀ (s : State) (rest : List HostOp) (n : Nat) (v : Word), 9 ≤ n →
    step { s with pending := .regRead n :: rest } = .refused (.unassignedRegister n) ∧
      step { s with pending := .regWrite n v :: rest } = .refused (.unassignedRegister n)

/-- R61: the host's write of a byte is what the host's next read of that address answers, and a read of another
address answers what it did before. -/
def Obligations.HostReadsTheByteLastWritten : Prop :=
  ∀ (s : State) (rest : List HostOp) (a c : Nat) (b : Byte), a < 2 ^ Config.params.aw → c < 2 ^ Config.params.aw →
    kindAt s.platform a = .plain → kindAt s.platform c = .plain →
    ∃ t, Sys2Proof.core.run 2 { s with pending := .memWrite a b :: .memRead c :: rest } = .next t ∧
      t = { s with
        pending := rest, mem := t.mem
        observed := .mem c (if c = a then b else s.mem.read c) :: s.observed } ∧
      ∀ d, t.mem.read d = if d = a then b else s.mem.read d

/-- The model's own stops (notes/assumptions/10.md): an access of the host, or of another agent during a command,
to an address that does not exist faults (DEDUCED), and one to a device is refused (DESIGN CHOICE). -/
def Obligations.HostAccessOutsideMemoryFaults : Prop :=
  ∀ (s : State) (rest : List HostOp) (v : Word) (a : Nat) (b : Byte),
    (2 ^ Config.params.aw ≤ a ∨ kindAt s.platform a = .absent →
      step { s with pending := .memRead a :: rest } = .fault (.noSuchAddress a) ∧
        step { s with pending := .memWrite a b :: rest } = .fault (.noSuchAddress a) ∧
        step { s with pending := .issueWithForeignRead v a :: rest } = .fault (.noSuchAddress a) ∧
        step { s with pending := .issueWithForeignWrite v a b :: rest } = .fault (.noSuchAddress a)) ∧
    (a < 2 ^ Config.params.aw → kindAt s.platform a = .device →
      step { s with pending := .memRead a :: rest } = .refused (.deviceAccess a) ∧
        step { s with pending := .memWrite a b :: rest } = .refused (.deviceAccess a) ∧
        step { s with pending := .issueWithForeignRead v a :: rest } = .refused (.deviceAccess a) ∧
        step { s with pending := .issueWithForeignWrite v a b :: rest } = .refused (.deviceAccess a))

/-! ## Reset -/

/-- R38, R231: the reset state reads as 0 in every register; an INSERT issued then fails with InvalidArgument and
touches no memory, and a HASH returns the offset basis. The event `Reset` leaves every host-visible register 0 and
memory as it was. -/
def Obligations.ResetClearsEveryVisibleRegister : Prop :=
  (∀ n, n ≤ 8 → regValue State.reset n = some 0) ∧
    (∃ t, exec .insert32 State.reset = .next t ∧ t.err = .invalidArgument ∧ t.mem = State.reset.mem ∧
      t.bus = State.reset.bus) ∧
    (∃ t, exec .insert64 State.reset = .next t ∧ t.err = .invalidArgument ∧ t.mem = State.reset.mem ∧
      t.bus = State.reset.bus) ∧
    (∃ t, exec .hash32 State.reset = .next t ∧ t.digest = 0x811C9DC5) ∧
    (∃ t, exec .hash64 State.reset = .next t ∧ t.digest = 0xCBF29CE484222325) ∧
    ∀ (s : State) (rest : List HostOp), ∃ t, step { s with pending := .reset :: rest } = .next t ∧
      (∀ n, n ≤ 8 → regValue t n = some 0) ∧ t.mem = s.mem ∧ t.bus = s.bus ∧ t.pending = rest

/-- R232: a reset that arrives during a command has no meaning and is refused. -/
def Obligations.ResetDuringCommandIsRefused : Prop :=
  ∀ (s : State) (rest : List HostOp) (v : Word),
    step { s with pending := .issueWithReset v :: rest } = .refused .resetDuringCommand

/-! ## The hash family -/

/-- R112: the step is the XOR with the byte and then the product with the prime modulo 2^N; the digest starts from
the offset basis and takes the bytes in order. -/
def Obligations.DigestIsTheFoldOfTheStep : Prop :=
  (∀ (a : Word) (b : Byte),
      (fnvStep .w32 a b).toNat = (a.toNat ^^^ b.toNat) * 16777619 % 4294967296 ∧
        (fnvStep .w64 a b).toNat = (a.toNat ^^^ b.toNat) * 1099511628211 % 18446744073709551616) ∧
    (fnv1a .w32 []).toNat = 2166136261 ∧ (fnv1a .w64 []).toNat = 14695981039346656037 ∧
    ∀ (N : Width) (bs : List Byte) (b : Byte), fnv1a N (bs ++ [b]) = fnvStep N (fnv1a N bs) b

/-- R121: a 32-bit digest is below 2^32, and a successful HASH32 leaves bits 63:32 of DIGEST 0. -/
def Obligations.DigestOfWidth32FitsInItsLowHalf : Prop :=
  (∀ bs : List Byte, (fnv1a .w32 bs).toNat < 2 ^ 32) ∧
    ∀ s t : State, exec .hash32 s = .next t → t.digest.extractLsb' 32 32 = 0

/-- INFERENCE R118: for a fixed byte the step is a bijection on the values of width N, for a fixed accumulator it
is injective on bytes, and two byte sequences that differ in exactly one position have different digests. -/
def Obligations.ChangingOneByteChangesTheDigest : Prop :=
  (∀ (N : Width) (b : Byte) (c : Word), c.toNat < 2 ^ N.bits →
      ∃ a : Word, (a.toNat < 2 ^ N.bits ∧ fnvStep N a b = c) ∧
        ∀ a' : Word, a'.toNat < 2 ^ N.bits → fnvStep N a' b = c → a' = a) ∧
    (∀ (N : Width) (a : Word) (b c : Byte), a.toNat < 2 ^ N.bits → fnvStep N a b = fnvStep N a c → b = c) ∧
    (∀ (N : Width) (xs ys : List Byte) (b c : Byte), b ≠ c →
      fnv1a N (xs ++ b :: ys) ≠ fnv1a N (xs ++ c :: ys)) ∧
    fnv1a .w32 [0x61] = 0xE40C292C ∧ fnv1a .w32 [0x62] = 0xE70C2DE5

/-- INFERENCE R119: the shift-and-add form of the multiplication by each prime, of every natural number and inside the
step of each width. -/
def Obligations.ShiftAndAddFormGivesTheSameProduct : Prop :=
  (∀ x : Nat,
      x * Width.w32.prime % 2 ^ Width.w32.bits =
          (x + (x <<< 1) + (x <<< 4) + (x <<< 7) + (x <<< 8) + (x <<< 24)) % 2 ^ 32 ∧
        x * Width.w64.prime % 2 ^ Width.w64.bits =
          (x + (x <<< 1) + (x <<< 4) + (x <<< 5) + (x <<< 7) + (x <<< 8) + (x <<< 40)) % 2 ^ 64) ∧
    (∀ (a : Word) (b : Byte), let x := a.toNat ^^^ b.toNat
      (fnvStep .w32 a b).toNat =
        (x + (x <<< 1) + (x <<< 4) + (x <<< 7) + (x <<< 8) + (x <<< 24)) % 2 ^ 32) ∧
    ∀ (a : Word) (b : Byte), let x := a ^^^ b.setWidth 64
      fnvStep .w64 a b = x + (x <<< 1) + (x <<< 4) + (x <<< 5) + (x <<< 7) + (x <<< 8) + (x <<< 40)

/-- INFERENCE R120: the two widths agree in their five low bits and not in six. -/
def Obligations.WidthsAgreeInFiveLowBits : Prop :=
  (∀ bs : List Byte, (fnv1a .w32 bs).toNat % 32 = (fnv1a .w64 bs).toNat % 32) ∧
    (fnv1a .w32 [0x61, 0x62, 0x63, 0x64]).toNat % 64 = 61 ∧
    (fnv1a .w64 [0x61, 0x62, 0x63, 0x64]).toNat % 64 = 29

/-- INFERENCE R120's consequence: with a bit array of 1, 2 or 4 bytes INSERT32 and INSERT64 have the same outcome
from every state, but for the hidden registers. -/
def Obligations.SmallArrayCannotTellTheWidths : Prop :=
  ∀ s : State, s.baLen = 1 ∨ s.baLen = 2 ∨ s.baLen = 4 →
    OutcomesSameButHidden (exec .insert32 s) (exec .insert64 s)

/-- R115, R116, R117: whenever the data span meets R70, HASH32 and HASH64 succeed. DIGEST becomes the digest of the
span's bytes, STATUS.ERR becomes 0, and nothing else the host can see changes: no memory, no operand register,
not TBIT. The reference sequence reads each byte of the span once, in increasing address order. -/
def Obligations.HashCommandsWriteTheDigestAndNothingElse : Prop :=
  (∀ s : State, DataSpanOk s → ∃ t, exec .hash32 s = .next t ∧
      t = { s with
        digest := fnv1a .w32 (s.mem.bytes s.dataBase.toNat s.dataLen.toNat), err := .none
        hidden := t.hidden
        bus := ((List.range s.dataLen.toNat).map fun k => Access.read (s.dataBase.toNat + k)).reverse ++ s.bus } ∧
      t.digest.extractLsb' 32 32 = 0) ∧
    (∀ s : State, DataSpanOk s → ∃ t, exec .hash64 s = .next t ∧
      t = { s with
        digest := fnv1a .w64 (s.mem.bytes s.dataBase.toNat s.dataLen.toNat), err := .none
        hidden := t.hidden
        bus := ((List.range s.dataLen.toNat).map fun k => Access.read (s.dataBase.toNat + k)).reverse ++ s.bus }) ∧
    fnv1a .w32 [] = 0x00000000811C9DC5 ∧ fnv1a .w64 [] = 0xCBF29CE484222325 ∧
    fnv1a .w32 [0x61] = 0x00000000E40C292C ∧ fnv1a .w64 [0x61] = 0xAF63DC4C8601EC8C

/-- R113 (b), R70: over an empty span HASH32 and HASH64 return the offset basis and access no memory, whatever
DATA_BASE holds. -/
def Obligations.HashOfTheEmptySpanIsTheBasis : Prop :=
  ∀ s : State, s.dataLen = 0 →
    (∃ t, exec .hash32 s = .next t ∧
      t = { s with digest := 2166136261, err := .none, hidden := t.hidden }) ∧
    ∃ t, exec .hash64 s = .next t ∧
      t = { s with digest := 14695981039346656037, err := .none, hidden := t.hidden }

/-- R113 (c): the digest is determined by the bytes of the span and by nothing else: no seed, no address, no earlier
command, no other register. -/
def Obligations.DigestDependsOnTheBytesAlone : Prop :=
  ∀ (N : Width) (s s' t t' : State), exec (hashOf N) s = .next t → exec (hashOf N) s' = .next t' →
    s.mem.bytes s.dataBase.toNat s.dataLen.toNat = s'.mem.bytes s'.dataBase.toNat s'.dataLen.toNat →
    t.digest = t'.digest

/-! ## The bit-array view -/

/-- INFERENCE R131: the decoder of a bit index, and that an index in range addresses a byte of the array. -/
def Obligations.BitIndexDecodesToByteAndPosition : Prop :=
  ∀ base i : Nat,
    byteOf i = i / 8 ∧ byteOf i = i >>> 3 ∧ posOf i = i % 8 ∧ (maskOf i).toNat = 2 ^ (i % 8) ∧
      (∀ j, (maskOf i).getLsbD j = true ↔ j = i % 8) ∧ addrOf base i = base + i / 8 ∧
      ∀ len, i < 8 * len → byteOf i ≤ len - 1 ∧ base ≤ addrOf base i ∧ addrOf base i < base + len ∧
        (base + len ≤ 2 ^ Config.params.aw → addrOf base i < 2 ^ Config.params.aw)

/-- R134: SETBIT. In range, with the array as R70 asks, it sets the bit of the index by one read and one write of its
byte, sets STATUS.ERR to 0, and changes nothing else the host can see; out of range it sets STATUS.ERR to
OutOfRange and does nothing else the host can see. That it does so even where the array breaks R70 is the model's
choice (notes/assumptions/5.md, DEDUCED). -/
def Obligations.SetbitSetsOneBitOrReportsOutOfRange : Prop :=
  (∀ s : State, s.bitIdx.toNat < 8 * s.baLen.toNat → BitArrayOk s →
      ∃ t, exec .setbit s = .next t ∧
        t = { s with
          mem := t.mem, err := .none, hidden := t.hidden
          bus := .write (s.baBase.toNat + s.bitIdx.toNat / 8) (t.mem.read (s.baBase.toNat + s.bitIdx.toNat / 8)) ::
            .read (s.baBase.toNat + s.bitIdx.toNat / 8) :: s.bus } ∧
        t.mem.read (s.baBase.toNat + s.bitIdx.toNat / 8) =
          s.mem.read (s.baBase.toNat + s.bitIdx.toNat / 8) ||| (1#8 <<< (s.bitIdx.toNat % 8)) ∧
        ∀ a, a ≠ s.baBase.toNat + s.bitIdx.toNat / 8 → t.mem.read a = s.mem.read a) ∧
    ∀ s : State, 8 * s.baLen.toNat ≤ s.bitIdx.toNat →
      ∃ t, exec .setbit s = .next t ∧ t = { s with err := .outOfRange, hidden := t.hidden }

/-- R137: TESTBIT. In range, with the array as R70 asks, it puts the bit of the index into STATUS.TBIT by one read,
sets STATUS.ERR to 0, and changes nothing else the host can see; out of range it sets STATUS.ERR to OutOfRange
and does nothing else the host can see. That it does so even where the array breaks R70 is the model's choice
(notes/assumptions/5.md, DEDUCED). -/
def Obligations.TestbitReadsOneBitOrReportsOutOfRange : Prop :=
  (∀ s : State, s.bitIdx.toNat < 8 * s.baLen.toNat → BitArrayOk s →
      ∃ t, exec .testbit s = .next t ∧
        t = { s with
          tbit := (s.mem.read (s.baBase.toNat + s.bitIdx.toNat / 8)).getLsbD (s.bitIdx.toNat % 8)
          err := .none, hidden := t.hidden
          bus := .read (s.baBase.toNat + s.bitIdx.toNat / 8) :: s.bus }) ∧
    ∀ s : State, 8 * s.baLen.toNat ≤ s.bitIdx.toNat →
      ∃ t, exec .testbit s = .next t ∧ t = { s with err := .outOfRange, hidden := t.hidden }

/-- INFERENCE R135: comparing BITIDX >> 3 with BA_LEN decides OutOfRange just as the comparison of BITIDX with the
capacity does, and on values the registers can hold the capacity does not reach 2^64. That an index out of range
answers OutOfRange even where the array breaks R70 is the model's choice (notes/assumptions/5.md, DEDUCED). -/
def Obligations.RangeCheckOnTheByteOffsetIsTheSame : Prop :=
  ∀ s : State,
    (((∃ t, exec .setbit s = .next t ∧ t.err = .outOfRange) ↔ s.baLen ≤ s.bitIdx >>> 3) ∧
      ((∃ t, exec .testbit s = .next t ∧ t.err = .outOfRange) ↔ s.baLen ≤ s.bitIdx >>> 3)) ∧
    (s.Inv → capacity s.baLen.toNat < 2 ^ 64)

/-- R139, R151: with a zero-length array SETBIT and TESTBIT report OutOfRange for every index, not InvalidArgument,
which INSERT reports (R151, R201). That INSERT does so even where the data span breaks R70 is the model's choice
(notes/assumptions/5.md, DEDUCED). -/
def Obligations.ZeroCapacityIsOutOfRangeForTheView : Prop :=
  ∀ s : State, s.baLen = 0 →
    (∃ t, exec .setbit s = .next t ∧ t = { s with err := .outOfRange, hidden := t.hidden }) ∧
      (∃ t, exec .testbit s = .next t ∧ t = { s with err := .outOfRange, hidden := t.hidden }) ∧
      (∃ t, exec .insert32 s = .next t ∧ t = { s with err := .invalidArgument, hidden := t.hidden }) ∧
      ∃ t, exec .insert64 s = .next t ∧ t = { s with err := .invalidArgument, hidden := t.hidden }

/-- INFERENCE R138 (a) to (d): set then test gives 1; a set changes no other bit; a set twice is a set once; two sets
commute. -/
def Obligations.SetAndTestObeyTheirLaws : Prop :=
  ∀ (s : State) (i j : Word), BitArrayOk s → i.toNat < 8 * s.baLen.toNat → j.toNat < 8 * s.baLen.toNat →
    ∃ t, exec .setbit { s with bitIdx := i } = .next t ∧
      (∃ u, exec .testbit { t with bitIdx := i } = .next u ∧ u.tbit = true) ∧
      (j ≠ i → ∃ u u', exec .testbit { s with bitIdx := j } = .next u ∧
        exec .testbit { t with bitIdx := j } = .next u' ∧ u'.tbit = u.tbit) ∧
      (∃ u, exec .setbit t = .next u ∧ ∀ a, u.mem.read a = t.mem.read a) ∧
      ∃ t' u u', exec .setbit { s with bitIdx := j } = .next t' ∧
        exec .setbit { t with bitIdx := j } = .next u ∧ exec .setbit { t' with bitIdx := i } = .next u' ∧
        ∀ a, u.mem.read a = u'.mem.read a

/-- INFERENCE R138 (g): after any sequence of SETBITs issued at the port, the bits of the array that are 1 are
those that were and those of the sequence. -/
def Obligations.RunOfSetbitsIsAUnion : Prop :=
  ∀ (is : List Word) (s : State) (rest : List HostOp), BitArrayOk s →
    (∀ i ∈ is, i.toNat < 8 * s.baLen.toNat) →
    s.pending = is.flatMap (fun i => [.regWrite 5 i, .regWrite 8 0x03]) ++ rest →
    ∃ t, Sys2Proof.core.run (2 * is.length) s = .next t ∧ t.pending = rest ∧
      ∀ j, j < 8 * s.baLen.toNat →
        (bitAt t.mem s.baBase.toNat j = true ↔
          bitAt s.mem s.baBase.toNat j = true ∨ ∃ i ∈ is, i.toNat = j)

/-! ## The window loop -/

/-- R152: the window offsets, with either value of LEGACY_BOUND. -/
def Obligations.WindowOffsetsAreAllLegalOnes : Prop :=
  ∀ (aw : Nat) (h : Params.Legal aw) (n w : Nat), 0 < w →
    (n < w → offsets ⟨aw, false, h⟩ n w = [] ∧ offsets ⟨aw, true, h⟩ n w = []) ∧
      (w ≤ n →
        offsets ⟨aw, false, h⟩ n w = List.range (n - w + 1) ∧
          offsets ⟨aw, true, h⟩ n w = List.range (n - w)) ∧
      (∀ o, o ∈ offsets ⟨aw, false, h⟩ n w ↔ o + w ≤ n) ∧ ∀ o, o ∈ offsets ⟨aw, true, h⟩ n w ↔ o + w < n

/-- INFERENCE R153: the reduction of a digest is its remainder by the capacity as natural numbers: always in
range, the digest itself when the capacity is larger, and its low bits when the capacity is a power of two. -/
def Obligations.ReductionIsTheRemainderByTheCapacity : Prop :=
  ∀ (d : Word) (len : Nat), 0 < len →
    (reduce d (capacity len)).toNat = d.toNat % (8 * len) ∧ (reduce d (capacity len)).toNat < 8 * len ∧
      (d.toNat < 8 * len → reduce d (capacity len) = d) ∧
      ∀ k, 8 * len = 2 ^ k → ∀ b, (reduce d (capacity len)).getLsbD b = (decide (b < k) && d.getLsbD b)

/-- R151: with WSIZE = 0 or BA_LEN = 0 an INSERT reports InvalidArgument and does nothing else the host can see,
whatever the data. That it does so whatever the spans, even where they break R70 or R71, is the model's choice
(notes/assumptions/5.md, DEDUCED). -/
def Obligations.InsertChecksItsPreconditionsFirst : Prop :=
  ∀ s : State, s.wsize = 0 ∨ s.baLen = 0 →
    (∃ t, exec .insert32 s = .next t ∧ t = { s with err := .invalidArgument, hidden := t.hidden }) ∧
      ∃ t, exec .insert64 s = .next t ∧ t = { s with err := .invalidArgument, hidden := t.hidden }

/-- R152, R155, R204: an INSERT whose data is too short for a window, and whose spans are disjoint (R71), succeeds and
changes nothing and makes no access. That it does so even where its spans break R70 is the model's choice
(notes/assumptions/5.md, DEDUCED). -/
def Obligations.ShortInputInsertIsANoOp : Prop :=
  ∀ s : State, s.wsize ≠ 0 → s.baLen ≠ 0 → s.dataLen.toNat < s.wsize.toNat → SpansDisjoint s →
    (∃ t, exec .insert32 s = .next t ∧ t = { s with err := .none, hidden := t.hidden }) ∧
      ∃ t, exec .insert64 s = .next t ∧ t = { s with err := .none, hidden := t.hidden }

/-- INFERENCE R159: under the premises of R70 and R71 an INSERT succeeds, and its end state is the one R159 gives:
the union of the array's bits with the bits of the windows, and all else unchanged. -/
def Obligations.InsertUnitesTheWindowBits : Prop :=
  ∀ s : State, s.wsize ≠ 0 → s.baLen ≠ 0 → InsertOk s →
    (∃ t, exec .insert32 s = .next t ∧ InsertEndState .w32 s t) ∧
      ∃ t, exec .insert64 s = .next t ∧ InsertEndState .w64 s t

/-- INFERENCE R160: the accesses of the reference sequence of a successful INSERT of `c` windows: `c * w` reads of
the data span, `c` reads and `c` writes of the bit array, and nothing else. -/
def Obligations.InsertAccessCounts : Prop :=
  ∀ (N : Width) (s : State), s.wsize ≠ 0 → s.baLen ≠ 0 → InsertOk s → s.wsize.toNat ≤ s.dataLen.toNat →
    ∃ t new, exec (insertOf N) s = .next t ∧ t.bus = new ++ s.bus ∧
      new.length = (s.dataLen.toNat - s.wsize.toNat + 1) * (s.wsize.toNat + 2) ∧
      new.countP (fun x => !x.isWrite && decide (InDataSpan s x.addr)) =
        (s.dataLen.toNat - s.wsize.toNat + 1) * s.wsize.toNat ∧
      new.countP (fun x => !x.isWrite && decide (InBitArray s x.addr)) = s.dataLen.toNat - s.wsize.toNat + 1 ∧
      new.countP (fun x => x.isWrite && decide (InBitArray s x.addr)) = s.dataLen.toNat - s.wsize.toNat + 1

/-- INFERENCE R163 (a): an INSERT applied twice leaves the array as once. -/
def Obligations.InsertTwiceIsInsertOnce : Prop :=
  ∀ (N : Width) (s : State), s.wsize ≠ 0 → s.baLen ≠ 0 → InsertOk s →
    ∃ t u, exec (insertOf N) s = .next t ∧ exec (insertOf N) t = .next u ∧
      (∀ a, u.mem.read a = t.mem.read a) ∧ (s.mem.wf = true → u.mem = t.mem)

/-- INFERENCE R163 (f): two INSERTs, of any widths and window sizes, over different data into the same array
commute. -/
def Obligations.InsertsIntoOneArrayCommute : Prop :=
  ∀ (N M : Width) (s : State) (base len w : Word), s.wsize ≠ 0 → w ≠ 0 → s.baLen ≠ 0 → InsertOk s →
    InsertOk { s with dataBase := base, dataLen := len, wsize := w } →
    ∃ t t' u u', exec (insertOf N) s = .next t ∧
      exec (insertOf M) { t with dataBase := base, dataLen := len, wsize := w } = .next u ∧
      exec (insertOf M) { s with dataBase := base, dataLen := len, wsize := w } = .next t' ∧
      exec (insertOf N) { t' with dataBase := s.dataBase, dataLen := s.dataLen, wsize := s.wsize } = .next u' ∧
      ∀ a, u.mem.read a = u'.mem.read a

/-- INFERENCE R164: after a successful INSERT the bit of every window of the data tests as 1. -/
def Obligations.InsertLeavesNoFalseNegatives : Prop :=
  ∀ (N : Width) (s t : State) (o : Nat), exec (insertOf N) s = .next t → t.err = .none →
    o + s.wsize.toNat ≤ s.dataLen.toNat →
    ∃ u, exec .testbit { t with bitIdx := reduce (fnv1a N (windowAt s o)) (8 * s.baLen.toNat) } = .next u ∧
      u.tbit = true ∧ u.err = .none

/-! ## Rules about all commands -/

/-- R200: the codes of the errors, and which command ends with which error, exactly when. -/
def Obligations.ErrorsHaveExactlyTheirCauses : Prop :=
  (Err.none.code = 0 ∧ Err.invalidArgument.code = 1 ∧ Err.outOfRange.code = 2 ∧ Err.illegalCommand.code = 3) ∧
    (∀ (i : Instr) (s t : State), exec i s = .next t →
      (t.err = .invalidArgument ↔ (i = .insert32 ∨ i = .insert64) ∧ (s.wsize = 0 ∨ s.baLen = 0)) ∧
        (t.err = .outOfRange ↔
          (i = .setbit ∨ i = .testbit) ∧ 8 * s.baLen.toNat ≤ s.bitIdx.toNat) ∧
        t.err ≠ .illegalCommand) ∧
    ∀ (v : Word) (s t : State), issue Config.params v s = .next t → (t.err = .illegalCommand ↔ decode v = .illegal)

/-- INFERENCE R207: a command that ends with an error has had one effect, the write of STATUS.ERR (R206). That it
leaves the hidden registers too, where R31 sets OFF and IDX to 0 when a command starts, is the model's reading
(notes/assumptions/6.md, DEDUCED). -/
def Obligations.FailedCommandOnlySetsErr : Prop :=
  ∀ (i : Instr) (s t : State), exec i s = .next t → t.err ≠ .none → t = { s with err := t.err }

/-- R25, R26, R39: no command changes an operand register, the host's side or the platform; only the HASH commands
change DIGEST, only TESTBIT changes TBIT, and only the INSERT commands and SETBIT change memory. -/
def Obligations.CommandsWriteOnlyTheirResults : Prop :=
  ∀ (i : Instr) (s t : State), exec i s = .next t →
    t = { s with
      digest := t.digest, err := t.err, tbit := t.tbit, mem := t.mem, hidden := t.hidden, bus := t.bus } ∧
      (i ≠ .hash32 → i ≠ .hash64 → t.digest = s.digest) ∧ (i ≠ .testbit → t.tbit = s.tbit) ∧
      (i ≠ .insert32 → i ≠ .insert64 → i ≠ .setbit → t.mem = s.mem)

/-- INFERENCE R79: every bit of memory that was 1 before a command is 1 after it, and every byte outside the bit
array is unchanged. -/
def Obligations.CommandsOnlySetBitsOfTheArray : Prop :=
  ∀ (i : Instr) (s t : State), exec i s = .next t →
    (∀ a j, (s.mem.read a).getLsbD j = true → (t.mem.read a).getLsbD j = true) ∧
      ∀ a, ¬InBitArray s a → t.mem.read a = s.mem.read a

/-- INFERENCE R70, R157: every access of every command lies in one of the two spans and inside the address space,
and every write in the bit array. -/
def Obligations.AccessesStayInsideTheSpans : Prop :=
  ∀ (i : Instr) (s t : State), exec i s = .next t →
    ∃ new, t.bus = new ++ s.bus ∧ ∀ x ∈ new,
      x.addr < 2 ^ Config.params.aw ∧ (InDataSpan s x.addr ∨ InBitArray s x.addr) ∧
        (x.isWrite = true → InBitArray s x.addr)

/-- R73: no command faults. -/
def Obligations.CommandsNeverFault : Prop := ∀ (i : Instr) (s : State) (e : Fault), exec i s ≠ .fault e

/-- R70, R71, R151, R152: which states each command answers with a next state. R70 is asked only of a command that is
to touch a span (notes/assumptions/5.md, DEDUCED), R71 of every INSERT that passes R151. -/
def Obligations.CommandsRunExactlyUnderTheirPremises : Prop :=
  ∀ s : State,
    ((∃ t, exec .hash32 s = .next t) ↔ DataSpanOk s) ∧ ((∃ t, exec .hash64 s = .next t) ↔ DataSpanOk s) ∧
      ((∃ t, exec .setbit s = .next t) ↔ 8 * s.baLen.toNat ≤ s.bitIdx.toNat ∨ BitArrayOk s) ∧
      ((∃ t, exec .testbit s = .next t) ↔ 8 * s.baLen.toNat ≤ s.bitIdx.toNat ∨ BitArrayOk s) ∧
      ((∃ t, exec .insert32 s = .next t) ↔
        s.wsize = 0 ∨ s.baLen = 0 ∨ s.dataLen.toNat < s.wsize.toNat ∧ SpansDisjoint s ∨ InsertOk s) ∧
      ((∃ t, exec .insert64 s = .next t) ↔
        s.wsize = 0 ∨ s.baLen = 0 ∨ s.dataLen.toNat < s.wsize.toNat ∧ SpansDisjoint s ∨ InsertOk s)

/-- R70, R71: how a command whose premises fail is refused: R70 of a command that is to touch the span, R71 of every
INSERT that passes R151. The names of the refusals, and which comes first where several premises fail, are the model's
(notes/assumptions/5.md, DESIGN CHOICE). -/
def Obligations.BrokenPremisesAreRefusedByName : Prop :=
  (∀ (N : Width) (s : State), s.dataLen ≠ 0 → 2 ^ 32 < s.dataBase.toNat + s.dataLen.toNat →
      exec (hashOf N) s = .refused .dataSpanWraps) ∧
    (∀ (N : Width) (s : State) (a : Nat), s.dataBase.toNat + s.dataLen.toNat ≤ 2 ^ 32 → InDataSpan s a →
      kindAt s.platform a ≠ .plain → exec (hashOf N) s = .refused .dataSpanNotPlain) ∧
    (∀ (i : Instr) (s : State), i = .setbit ∨ i = .testbit → s.bitIdx.toNat < 8 * s.baLen.toNat →
      2 ^ 32 < s.baBase.toNat + s.baLen.toNat → exec i s = .refused .bitArrayWraps) ∧
    (∀ (i : Instr) (s : State) (a : Nat), i = .setbit ∨ i = .testbit → s.bitIdx.toNat < 8 * s.baLen.toNat →
      s.baBase.toNat + s.baLen.toNat ≤ 2 ^ 32 → InBitArray s a → kindAt s.platform a ≠ .plain →
      exec i s = .refused .bitArrayNotPlain) ∧
    (∀ (N : Width) (s : State), s.wsize ≠ 0 → s.baLen ≠ 0 → s.wsize.toNat ≤ s.dataLen.toNat →
      (2 ^ 32 < s.dataBase.toNat + s.dataLen.toNat → exec (insertOf N) s = .refused .dataSpanWraps) ∧
        (s.dataBase.toNat + s.dataLen.toNat ≤ 2 ^ 32 → ∀ a, InDataSpan s a → kindAt s.platform a ≠ .plain →
          exec (insertOf N) s = .refused .dataSpanNotPlain) ∧
        (DataSpanOk s → 2 ^ 32 < s.baBase.toNat + s.baLen.toNat →
          exec (insertOf N) s = .refused .bitArrayWraps) ∧
        (DataSpanOk s → s.baBase.toNat + s.baLen.toNat ≤ 2 ^ 32 → ∀ a, InBitArray s a →
          kindAt s.platform a ≠ .plain → exec (insertOf N) s = .refused .bitArrayNotPlain) ∧
        (DataSpanOk s → BitArrayOk s → ∀ a, InDataSpan s a → InBitArray s a →
          exec (insertOf N) s = .refused .spansOverlap)) ∧
    ∀ (N : Width) (s : State) (a : Nat), s.wsize ≠ 0 → s.baLen ≠ 0 → s.dataLen.toNat < s.wsize.toNat →
      InDataSpan s a → InBitArray s a → exec (insertOf N) s = .refused .spansOverlap

/-- INFERENCE R34: the hidden registers are dead between commands. From states that differ only in them, every
command and every step has the same outcome, but for the hidden registers. -/
def Obligations.HiddenRegistersAreDead : Prop :=
  ∀ (s : State) (h : Hidden),
    OutcomesSameButHidden (step s) (step { s with hidden := h }) ∧
      ∀ i : Instr, OutcomesSameButHidden (exec i s) (exec i { s with hidden := h })

/-- R60, R239: what a command does depends on no byte of memory outside the two spans, and it leaves those bytes as
they are: with other bytes there it makes the same accesses, gives the same results and sets the same bits. -/
def Obligations.CommandsDependOnTheSpansAlone : Prop :=
  ∀ (i : Instr) (s t : State) (m : Memory), exec i s = .next t →
    (∀ a, InDataSpan s a ∨ InBitArray s a → m.read a = s.mem.read a) →
    ∃ t', exec i { s with mem := m } = .next t' ∧ t' = { t with mem := t'.mem } ∧
      (∀ a, InDataSpan s a ∨ InBitArray s a → t'.mem.read a = t.mem.read a) ∧
      ∀ a, ¬InDataSpan s a → ¬InBitArray s a → t'.mem.read a = m.read a

/-- R7, R28, R31, R60: every step, of this hardware and of an engine with any parameters, keeps the invariant: memory
canonical and inside the address space, and bits 63:AW of the AW-bit registers and counters 0. -/
def Obligations.StepKeepsTheInvariant : Prop :=
  (∀ s t : State, s.Inv → step s = .next t → t.Inv) ∧
    ∀ (p : Params) (s t : State), s.InvAt p → stepAt p s = .next t → t.InvAt p

/-- R38: the reset state meets the invariant. -/
def Obligations.ResetMeetsTheInvariant : Prop := State.reset.Inv

/-! ## Other agents during a command -/

/-- R239 and notes/assumptions/11.md (DEDUCED): another agent's write into the data span or the bit array during a
command, whichever of them the command uses, is refused; a write elsewhere lands, and the command does what it would
have done without it. -/
def Obligations.ForeignWriteDuringACommand : Prop :=
  ∀ (s : State) (rest : List HostOp) (v : Word) (a : Nat) (b : Byte), a < 2 ^ Config.params.aw →
    kindAt s.platform a = .plain →
    (InDataSpan s a ∨ InBitArray s a →
      step { s with pending := .issueWithForeignWrite v a b :: rest } = .refused .foreignWriteDuringCommand) ∧
    (¬InDataSpan s a → ¬InBitArray s a → ∀ t, issue Config.params v { s with pending := rest } = .next t →
      ∃ t', step { s with pending := .issueWithForeignWrite v a b :: rest } = .next t' ∧
        t' = { t with mem := t'.mem } ∧ t'.mem.read a = b ∧ ∀ c, c ≠ a → t'.mem.read c = t.mem.read c)

/-- INFERENCE, the last sentence of R239 ("[derived: from 41_bitarray.md rule R132]"): another agent's read during a
command harms nothing, and the byte it sees has every bit that was 1 before the command and none that is 0 after it.
Which of the bits between it sees is a free value (notes/assumptions/9.md). -/
def Obligations.ForeignReadSeesAByteOnTheWay : Prop :=
  ∀ (s t : State) (rest : List HostOp) (v : Word) (a : Nat), a < 2 ^ Config.params.aw →
    kindAt s.platform a = .plain → issue Config.params v { s with pending := rest } = .next t →
    ∃ b, step { s with pending := .issueWithForeignRead v a :: rest } =
        .next { t with observed := .foreign a b :: s.observed, draws := s.draws + 1 } ∧
      (∀ j, (s.mem.read a).getLsbD j = true → b.getLsbD j = true) ∧
      ∀ j, b.getLsbD j = true → (t.mem.read a).getLsbD j = true

/-! ## The document's calls -/

/-- R187, R188: the calls hash32 and hash64 answer the digest of the buffer. -/
def Obligations.HashCallAnswersTheDigest : Prop :=
  ∀ (N : Width) (s : State) (rest : List HostOp) (base len : Word),
    base.toNat < 2 ^ 32 → len.toNat < 2 ^ 32 →
    DataSpanOk { s with dataBase := base, dataLen := len } → s.pending = callHash N base len ++ rest →
    ∃ t, Sys2Proof.core.run 4 s = .next t ∧ t.pending = rest ∧ t.mem = s.mem ∧
      t.observed = .reg 6 (fnv1a N (s.mem.bytes base.toNat len.toNat)) :: s.observed

/-- R189, R190: the calls insertBloom32 and insertBloom64 insert the windows and answer a STATUS with ERR = 0. -/
def Obligations.InsertCallInsertsAndAnswersNoError : Prop :=
  ∀ (N : Width) (s : State) (rest : List HostOp) (bb bl db dl w : Word),
    bb.toNat < 2 ^ 32 → bl.toNat < 2 ^ 32 → db.toNat < 2 ^ 32 → dl.toNat < 2 ^ 32 → w.toNat < 2 ^ 32 →
    w ≠ 0 → bl ≠ 0 →
    InsertOk { s with baBase := bb, baLen := bl, dataBase := db, dataLen := dl, wsize := w } →
    s.pending = callInsert N bb bl db dl w ++ rest →
    ∃ t u v, Sys2Proof.core.run 7 s = .next t ∧ t = { u with observed := .reg 7 v :: s.observed } ∧
      errField v = 0 ∧
      InsertEndState N
        { s with pending := rest, baBase := bb, baLen := bl, dataBase := db, dataLen := dl, wsize := w } u

/-- R191: the calls setBit and testBit, for an index in range: setBit answers ERR = 0 and leaves the bit 1, and
testBit answers ERR = 0 and, by its second read of STATUS, the bit. -/
def Obligations.BitCallsSetAndAnswerTheBit : Prop :=
  ∀ (s : State) (rest : List HostOp) (bb bl i : Word), bb.toNat < 2 ^ 32 → bl.toNat < 2 ^ 32 →
    i.toNat < 8 * bl.toNat → BitArrayOk { s with baBase := bb, baLen := bl } →
    (s.pending = callSetBit bb bl i ++ rest →
      ∃ t v, Sys2Proof.core.run 5 s = .next t ∧ t.pending = rest ∧ t.observed = .reg 7 v :: s.observed ∧
        errField v = 0 ∧ bitAt t.mem bb.toNat i.toNat = true) ∧
    (s.pending = callTestBit bb bl i ++ rest →
      ∃ t v, Sys2Proof.core.run 6 s = .next t ∧ t.pending = rest ∧
        t.observed = .reg 7 v :: .reg 7 v :: s.observed ∧
        errField v = 0 ∧ tbitField v = bitAt s.mem bb.toNat i.toNat ∧ t.mem = s.mem)

/-- INFERENCE R164, R192: a membership query for a byte string equal to an inserted window, of the same width and
with the same array, answers 1. -/
def Obligations.QueryFindsEveryInsertedWindow : Prop :=
  ∀ (N : Width) (s t : State) (rest : List HostOp) (o : Nat) (q : Word), s.Inv →
    exec (insertOf N) s = .next t → t.err = .none → o + s.wsize.toNat ≤ s.dataLen.toNat →
    q.toNat < 2 ^ 32 → DataSpanOk { t with dataBase := q, dataLen := s.wsize } →
    t.mem.bytes q.toNat s.wsize.toNat = windowAt s o →
    ∃ u v, Sys2Proof.core.run 9
        { t with pending := callQuery N s.baBase s.baLen q s.wsize (fnv1a N (windowAt s o)) ++ rest } = .next u ∧
      u.observed = .reg 7 v :: .reg 6 (fnv1a N (windowAt s o)) :: t.observed ∧
      errField v = 0 ∧ tbitField v = true

/-! ## Other parameters -/

/-- R7, R28, R60, R181: the engine of every legal AW stores what the host writes modulo 2^AW, keeps its capacity below
2^64, and has the memory of 2^AW bytes; this hardware is the one with AW = 32. R70, R112, R115, R116: a HASH answers
the digest of its data span and asks of that span that it end inside the memory. The stops are the model's
(notes/assumptions/5.md, notes/assumptions/10.md). -/
def Obligations.EveryWidthHasItsOwnRegistersAndMemory : Prop :=
  (∀ p : Params, 1 ≤ p.aw ∧ p.aw ≤ 61) ∧ Config.params.aw = 32 ∧
    (∀ s : State, step s = stepAt Config.params s) ∧
    (∀ (i : Instr) (s : State), exec i s = runCommand Config.params i s) ∧
    ∀ (p : Params) (s : State) (rest : List HostOp) (v : Word),
      stepAt p { s with pending := .regWrite 0 v :: rest } =
        .next { s with pending := rest, baBase := BitVec.ofNat 64 (v.toNat % 2 ^ p.aw) } ∧
      stepAt p { s with pending := .regWrite 1 v :: rest } =
        .next { s with pending := rest, baLen := BitVec.ofNat 64 (v.toNat % 2 ^ p.aw) } ∧
      stepAt p { s with pending := .regWrite 2 v :: rest } =
        .next { s with pending := rest, dataBase := BitVec.ofNat 64 (v.toNat % 2 ^ p.aw) } ∧
      stepAt p { s with pending := .regWrite 3 v :: rest } =
        .next { s with pending := rest, dataLen := BitVec.ofNat 64 (v.toNat % 2 ^ p.aw) } ∧
      stepAt p { s with pending := .regWrite 4 v :: rest } =
        .next { s with pending := rest, wsize := BitVec.ofNat 64 (v.toNat % 2 ^ p.aw) } ∧
      stepAt p { s with pending := .regWrite 5 v :: rest } = .next { s with pending := rest, bitIdx := v } ∧
      (s.InvAt p → 8 * s.baLen.toNat < 2 ^ 64) ∧
      (∀ (a : Nat) (b : Byte), a < 2 ^ p.aw → kindAt s.platform a = .plain →
        ∃ t, stepAt p { s with pending := .memWrite a b :: rest } = .next t ∧ t.mem.read a = b) ∧
      (∀ a : Nat, 2 ^ p.aw ≤ a →
        stepAt p { s with pending := .memRead a :: rest } = .fault (.noSuchAddress a)) ∧
      ∀ N : Width,
        (DataSpanOkAt p s → ∃ t, runCommand p (hashOf N) s = .next t ∧
          t.digest = fnv1a N (s.mem.bytes s.dataBase.toNat s.dataLen.toNat) ∧ t.err = .none) ∧
        (s.dataLen ≠ 0 → 2 ^ p.aw < s.dataBase.toNat + s.dataLen.toNat →
          runCommand p (hashOf N) s = .refused .dataSpanWraps)

/-- INFERENCE R159, R163 (a), (b), R164 with either value of LEGACY_BOUND (R8, R152) and any AW: an INSERT under
its premises inserts the windows of its bound and no other. With the legacy bound the last window is left out, and
where it is the only one nothing is set. The same INSERT again changes nothing more, and the bit of every window
of the bound tests as 1. -/
def Obligations.InsertWithEitherBoundInsertsItsWindows : Prop :=
  ∀ (p : Params) (N : Width) (s : State), s.wsize ≠ 0 → s.baLen ≠ 0 → InsertOkAt p s →
    ∃ t, runCommand p (insertOf N) s = .next t ∧
      (p.legacyBound = false →
        InsertEndStateFor (fun o => o + s.wsize.toNat ≤ s.dataLen.toNat) N s t) ∧
      (p.legacyBound = true →
        InsertEndStateFor (fun o => o + s.wsize.toNat < s.dataLen.toNat) N s t ∧
          (s.dataLen.toNat ≤ s.wsize.toNat → ∀ a, t.mem.read a = s.mem.read a)) ∧
      (∃ u, runCommand p (insertOf N) t = .next u ∧ ∀ a, u.mem.read a = t.mem.read a) ∧
      ∀ o, o + s.wsize.toNat < s.dataLen.toNat ∨
          p.legacyBound = false ∧ o + s.wsize.toNat ≤ s.dataLen.toNat →
        ∃ u, runCommand p .testbit { t with bitIdx := reduce (fnv1a N (windowAt s o)) (8 * s.baLen.toNat) } =
            .next u ∧ u.tbit = true ∧ u.err = .none
end

