-- ==== Sys2Proof/Laws/Memory.lean ====
section
/-! SUPPORT. Memory: a read after a write, the canonical form, and that equal memories are equal data
(spec/20_memory.md R61). The read laws hold of every list, canonical or not. -/

namespace Sys2Proof.Machine

@[simp] theorem Memory.read_nil (a : Nat) : Memory.read [] a = Memory.unlisted := rfl

theorem Memory.read_cons (c : Host.Cell) (m : Memory) (a : Nat) :
    Memory.read (c :: m) a = if c.1 = a then c.2 else Memory.read m a := rfl

theorem Memory.read_erase (m : Memory) (a b : Nat) :
    (m.erase a).read b = if b = a then Memory.unlisted else m.read b := by
  induction m with
  | nil => simp [Memory.erase]
  | cons c m ih =>
    by_cases hc : c.1 = a
    · have : Memory.erase (c :: m) a = Memory.erase m a := by simp [Memory.erase, hc]
      rw [this, ih, Memory.read_cons]
      by_cases hb : b = a
      · simp [hb]
      · have hcb : c.1 ≠ b := fun h => hb (h.symm.trans hc)
        simp [hb, hcb]
    · have : Memory.erase (c :: m) a = c :: Memory.erase m a := by simp [Memory.erase, hc]
      rw [this, Memory.read_cons, ih, Memory.read_cons]
      by_cases hb : b = a
      · subst hb; simp [hc]
      · simp [hb]

theorem Memory.read_insert (m : Memory) (a b : Nat) (v : Byte) :
    (m.insert a v).read b = if b = a then v else m.read b := by
  induction m with
  | nil => simp [Memory.insert, Memory.read_cons, eq_comm]
  | cons c m ih =>
    rw [Memory.insert]
    split
    · rw [Memory.read_cons]; simp [eq_comm]
    · split
      · rename_i hc
        rw [Memory.read_cons, Memory.read_cons, hc]
        by_cases hb : b = a
        · simp [hb]
        · simp [hb, Ne.symm hb]
      · rename_i hc
        rw [Memory.read_cons, ih, Memory.read_cons]
        by_cases hb : b = a
        · subst hb; simp [hc]
        · simp [hb]

/-- R61: `MemWrite(a, 1, v)` makes `v` the byte at `a` and changes no other byte. -/
theorem Memory.read_write (m : Memory) (a b : Nat) (v : Byte) :
    (m.write a v).read b = if b = a then v else m.read b := by
  unfold Memory.write
  split
  · rename_i hv; rw [Memory.read_erase, hv]
  · exact Memory.read_insert m a b v

@[simp] theorem Memory.read_write_same (m : Memory) (a : Nat) (v : Byte) : (m.write a v).read a = v := by
  simp [Memory.read_write]

theorem Memory.read_write_other {m : Memory} {a b : Nat} {v : Byte} (h : b ≠ a) :
    (m.write a v).read b = m.read b := by
  simp [Memory.read_write, h]

/-- An entry after a write is an old entry or one at the address written. -/
theorem Memory.mem_write {m : Memory} {a : Nat} {v : Byte} {c : Host.Cell} (h : c ∈ m.write a v) :
    c ∈ m ∨ c.1 = a := by
  have hins : ∀ m : Memory, c ∈ m.insert a v → c ∈ m ∨ c.1 = a := by
    intro m
    induction m with
    | nil => intro h; simp [Memory.insert] at h; simp [h]
    | cons d m ih =>
      intro h
      rw [Memory.insert] at h
      split at h
      · rcases List.mem_cons.1 h with rfl | h
        · exact .inr rfl
        · exact .inl h
      · split at h
        · rcases List.mem_cons.1 h with rfl | h
          · exact .inr rfl
          · exact .inl (List.mem_cons_of_mem _ h)
        · rcases List.mem_cons.1 h with rfl | h
          · exact .inl List.mem_cons_self
          · exact (ih h).imp (List.mem_cons_of_mem _) id
  unfold Memory.write at h
  split at h
  · exact .inl (List.mem_of_mem_filter h)
  · exact hins m h

/-! ## The canonical form -/

theorem Memory.rising_cons {c : Host.Cell} {m : Memory} :
    Memory.rising (c :: m) = true ↔ (∀ d ∈ m, c.1 < d.1) ∧ Memory.rising m = true := by
  simp [Memory.rising]

theorem Memory.rising_erase {m : Memory} (a : Nat) (h : m.rising = true) : (m.erase a).rising = true := by
  induction m with
  | nil => rfl
  | cons c m ih =>
    rw [Memory.rising_cons] at h
    by_cases hc : c.1 = a
    · have : Memory.erase (c :: m) a = Memory.erase m a := by simp [Memory.erase, hc]
      rw [this]; exact ih h.2
    · have : Memory.erase (c :: m) a = c :: Memory.erase m a := by simp [Memory.erase, hc]
      rw [this, Memory.rising_cons]
      exact ⟨fun d hd => h.1 d (List.mem_of_mem_filter hd), ih h.2⟩

theorem Memory.mem_insert {m : Memory} {a : Nat} {v : Byte} {d : Host.Cell} (h : d ∈ m.insert a v) :
    d ∈ m ∨ d = (a, v) := by
  induction m with
  | nil => simp [Memory.insert] at h; simp [h]
  | cons c m ih =>
    rw [Memory.insert] at h
    split at h
    · rcases List.mem_cons.1 h with rfl | h
      · exact .inr rfl
      · exact .inl h
    · split at h
      · rcases List.mem_cons.1 h with rfl | h
        · exact .inr rfl
        · exact .inl (List.mem_cons_of_mem _ h)
      · rcases List.mem_cons.1 h with rfl | h
        · exact .inl List.mem_cons_self
        · exact (ih h).imp (List.mem_cons_of_mem _) id

theorem Memory.rising_insert {m : Memory} (a : Nat) (v : Byte) (h : m.rising = true) :
    (m.insert a v).rising = true := by
  induction m with
  | nil => rfl
  | cons c m ih =>
    have h' := Memory.rising_cons.1 h
    rw [Memory.insert]
    split
    · rename_i hac
      rw [Memory.rising_cons]
      refine ⟨fun d hd => ?_, h⟩
      rcases List.mem_cons.1 hd with rfl | hd
      · exact hac
      · exact lt_trans hac (h'.1 d hd)
    · split
      · rename_i hca
        rw [Memory.rising_cons]
        exact ⟨fun d hd => hca ▸ h'.1 d hd, h'.2⟩
      · rename_i hac hca
        rw [Memory.rising_cons]
        refine ⟨fun d hd => ?_, ih h'.2⟩
        rcases Memory.mem_insert hd with hd | rfl
        · exact h'.1 d hd
        · show c.1 < a
          omega

theorem Memory.wf_iff {m : Memory} :
    m.wf = true ↔ m.rising = true ∧ ∀ c ∈ m, c.2 ≠ Memory.unlisted := by
  simp [Memory.wf]

@[simp] theorem Memory.wf_nil : Memory.wf [] = true := rfl

/-- Every write keeps the canonical form. -/
theorem Memory.wf_write {m : Memory} (a : Nat) (v : Byte) (h : m.wf = true) : (m.write a v).wf = true := by
  rw [Memory.wf_iff] at h ⊢
  unfold Memory.write
  split
  · exact ⟨Memory.rising_erase a h.1, fun c hc => h.2 c (List.mem_of_mem_filter hc)⟩
  · rename_i hv
    refine ⟨Memory.rising_insert a v h.1, fun c hc => ?_⟩
    rcases Memory.mem_insert hc with hc | rfl
    · exact h.2 c hc
    · exact hv

theorem Memory.read_below {m : Memory} {a : Nat} (h : ∀ c ∈ m, a < c.1) : m.read a = Memory.unlisted := by
  induction m with
  | nil => rfl
  | cons c m ih =>
    rw [Memory.read_cons, if_neg (Nat.ne_of_gt (h c List.mem_cons_self)),
      ih fun d hd => h d (List.mem_cons_of_mem _ hd)]

/-- Two canonical memories that read the same everywhere are the same list. -/
theorem Memory.ext_of_wf {m m' : Memory} (h : m.wf = true) (h' : m'.wf = true)
    (hr : ∀ a, m.read a = m'.read a) : m = m' := by
  induction m generalizing m' with
  | nil =>
    cases m' with
    | nil => rfl
    | cons c m' =>
      have := (Memory.wf_iff.1 h').2 c List.mem_cons_self
      have hc := hr c.1
      rw [Memory.read_cons, if_pos rfl] at hc
      exact absurd hc.symm this
  | cons c m ih =>
    have w := Memory.wf_iff.1 h
    have r := Memory.rising_cons.1 w.1
    cases m' with
    | nil =>
      have hc := hr c.1
      rw [Memory.read_cons, if_pos rfl] at hc
      exact absurd hc (w.2 c List.mem_cons_self)
    | cons d m' =>
      have w' := Memory.wf_iff.1 h'
      have r' := Memory.rising_cons.1 w'.1
      have hcd : c.1 = d.1 := by
        rcases lt_trichotomy c.1 d.1 with hlt | heq | hgt
        · have hc := hr c.1
          rw [Memory.read_cons, if_pos rfl, Memory.read_below (m := d :: m')] at hc
          · exact absurd hc (w.2 c List.mem_cons_self)
          · intro e he
            rcases List.mem_cons.1 he with rfl | he
            · exact hlt
            · exact lt_trans hlt (r'.1 e he)
        · exact heq
        · have hd := hr d.1
          rw [Memory.read_cons (c := d), if_pos rfl, Memory.read_below (m := c :: m)] at hd
          · exact absurd hd.symm (w'.2 d List.mem_cons_self)
          · intro e he
            rcases List.mem_cons.1 he with rfl | he
            · exact hgt
            · exact lt_trans hgt (r.1 e he)
      have hv : c.2 = d.2 := by
        have hc := hr c.1
        rw [Memory.read_cons, if_pos rfl, Memory.read_cons, if_pos hcd.symm] at hc
        exact hc
      have hce : c = d := Prod.ext hcd hv
      subst hce
      congr 1
      refine ih (Memory.wf_iff.2 ⟨r.2, fun e he => w.2 e (List.mem_cons_of_mem _ he)⟩)
        (Memory.wf_iff.2 ⟨r'.2, fun e he => w'.2 e (List.mem_cons_of_mem _ he)⟩) fun a => ?_
      by_cases ha : c.1 = a
      · rw [Memory.read_below fun e he => ha ▸ r.1 e he, Memory.read_below fun e he => ha ▸ r'.1 e he]
      · have := hr a
        rwa [Memory.read_cons, if_neg ha, Memory.read_cons, if_neg ha] at this

/-! ## Spans of bytes -/

@[simp] theorem Memory.bytes_zero (m : Memory) (base : Nat) : m.bytes base 0 = [] := rfl

theorem Memory.bytes_succ (m : Memory) (base len : Nat) :
    m.bytes base (len + 1) = m.read base :: m.bytes (base + 1) len := by
  unfold Memory.bytes
  rw [List.range_succ_eq_map]
  simp [Function.comp_def, Nat.add_assoc, Nat.add_comm 1]

@[simp] theorem Memory.length_bytes (m : Memory) (base len : Nat) : (m.bytes base len).length = len := by
  simp [Memory.bytes]

/-- A span's bytes depend on the addresses of the span alone. -/
theorem Memory.bytes_congr {m m' : Memory} {base len : Nat}
    (h : ∀ a, base ≤ a → a < base + len → m.read a = m'.read a) : m.bytes base len = m'.bytes base len := by
  unfold Memory.bytes
  refine List.map_congr_left fun k hk => h _ (Nat.le_add_right _ _) ?_
  have := List.mem_range.1 hk
  omega

end Sys2Proof.Machine
end

