-- ==== Sys2Proof/Laws/State.lean ====
section
/-! SUPPORT. What each named update of the state leaves in each field: one lemma per field per update,
so that no later proof unfolds an update. -/

namespace Sys2Proof.Machine

/-! ## raise -/

@[simp] theorem raise_baBase (e : Err) (s : State) : (raise e s).baBase = s.baBase := rfl
@[simp] theorem raise_baLen (e : Err) (s : State) : (raise e s).baLen = s.baLen := rfl
@[simp] theorem raise_dataBase (e : Err) (s : State) : (raise e s).dataBase = s.dataBase := rfl
@[simp] theorem raise_dataLen (e : Err) (s : State) : (raise e s).dataLen = s.dataLen := rfl
@[simp] theorem raise_wsize (e : Err) (s : State) : (raise e s).wsize = s.wsize := rfl
@[simp] theorem raise_bitIdx (e : Err) (s : State) : (raise e s).bitIdx = s.bitIdx := rfl
@[simp] theorem raise_digest (e : Err) (s : State) : (raise e s).digest = s.digest := rfl
@[simp] theorem raise_err (e : Err) (s : State) : (raise e s).err = e := rfl
@[simp] theorem raise_tbit (e : Err) (s : State) : (raise e s).tbit = s.tbit := rfl
@[simp] theorem raise_hidden (e : Err) (s : State) : (raise e s).hidden = s.hidden := rfl
@[simp] theorem raise_mem (e : Err) (s : State) : (raise e s).mem = s.mem := rfl
@[simp] theorem raise_platform (e : Err) (s : State) : (raise e s).platform = s.platform := rfl
@[simp] theorem raise_pending (e : Err) (s : State) : (raise e s).pending = s.pending := rfl
@[simp] theorem raise_observed (e : Err) (s : State) : (raise e s).observed = s.observed := rfl
@[simp] theorem raise_bus (e : Err) (s : State) : (raise e s).bus = s.bus := rfl
@[simp] theorem raise_draws (e : Err) (s : State) : (raise e s).draws = s.draws := rfl

/-! ## succeed -/

@[simp] theorem succeed_baBase (s : State) : (succeed s).baBase = s.baBase := rfl
@[simp] theorem succeed_baLen (s : State) : (succeed s).baLen = s.baLen := rfl
@[simp] theorem succeed_dataBase (s : State) : (succeed s).dataBase = s.dataBase := rfl
@[simp] theorem succeed_dataLen (s : State) : (succeed s).dataLen = s.dataLen := rfl
@[simp] theorem succeed_wsize (s : State) : (succeed s).wsize = s.wsize := rfl
@[simp] theorem succeed_bitIdx (s : State) : (succeed s).bitIdx = s.bitIdx := rfl
@[simp] theorem succeed_digest (s : State) : (succeed s).digest = s.digest := rfl
@[simp] theorem succeed_err (s : State) : (succeed s).err = .none := rfl
@[simp] theorem succeed_tbit (s : State) : (succeed s).tbit = s.tbit := rfl
@[simp] theorem succeed_hidden (s : State) : (succeed s).hidden = s.hidden := rfl
@[simp] theorem succeed_mem (s : State) : (succeed s).mem = s.mem := rfl
@[simp] theorem succeed_platform (s : State) : (succeed s).platform = s.platform := rfl
@[simp] theorem succeed_pending (s : State) : (succeed s).pending = s.pending := rfl
@[simp] theorem succeed_observed (s : State) : (succeed s).observed = s.observed := rfl
@[simp] theorem succeed_bus (s : State) : (succeed s).bus = s.bus := rfl
@[simp] theorem succeed_draws (s : State) : (succeed s).draws = s.draws := rfl

/-! ## beginCommand -/

@[simp] theorem beginCommand_baBase (s : State) : (beginCommand s).baBase = s.baBase := rfl
@[simp] theorem beginCommand_baLen (s : State) : (beginCommand s).baLen = s.baLen := rfl
@[simp] theorem beginCommand_dataBase (s : State) : (beginCommand s).dataBase = s.dataBase := rfl
@[simp] theorem beginCommand_dataLen (s : State) : (beginCommand s).dataLen = s.dataLen := rfl
@[simp] theorem beginCommand_wsize (s : State) : (beginCommand s).wsize = s.wsize := rfl
@[simp] theorem beginCommand_bitIdx (s : State) : (beginCommand s).bitIdx = s.bitIdx := rfl
@[simp] theorem beginCommand_digest (s : State) : (beginCommand s).digest = s.digest := rfl
@[simp] theorem beginCommand_err (s : State) : (beginCommand s).err = s.err := rfl
@[simp] theorem beginCommand_tbit (s : State) : (beginCommand s).tbit = s.tbit := rfl
@[simp] theorem beginCommand_hidden (s : State) : (beginCommand s).hidden = { s.hidden with off := 0, idx := 0 } := rfl
@[simp] theorem beginCommand_mem (s : State) : (beginCommand s).mem = s.mem := rfl
@[simp] theorem beginCommand_platform (s : State) : (beginCommand s).platform = s.platform := rfl
@[simp] theorem beginCommand_pending (s : State) : (beginCommand s).pending = s.pending := rfl
@[simp] theorem beginCommand_observed (s : State) : (beginCommand s).observed = s.observed := rfl
@[simp] theorem beginCommand_bus (s : State) : (beginCommand s).bus = s.bus := rfl
@[simp] theorem beginCommand_draws (s : State) : (beginCommand s).draws = s.draws := rfl

/-! ## setTbit -/

@[simp] theorem setTbit_baBase (b : Bool) (s : State) : (setTbit b s).baBase = s.baBase := rfl
@[simp] theorem setTbit_baLen (b : Bool) (s : State) : (setTbit b s).baLen = s.baLen := rfl
@[simp] theorem setTbit_dataBase (b : Bool) (s : State) : (setTbit b s).dataBase = s.dataBase := rfl
@[simp] theorem setTbit_dataLen (b : Bool) (s : State) : (setTbit b s).dataLen = s.dataLen := rfl
@[simp] theorem setTbit_wsize (b : Bool) (s : State) : (setTbit b s).wsize = s.wsize := rfl
@[simp] theorem setTbit_bitIdx (b : Bool) (s : State) : (setTbit b s).bitIdx = s.bitIdx := rfl
@[simp] theorem setTbit_digest (b : Bool) (s : State) : (setTbit b s).digest = s.digest := rfl
@[simp] theorem setTbit_err (b : Bool) (s : State) : (setTbit b s).err = s.err := rfl
@[simp] theorem setTbit_tbit (b : Bool) (s : State) : (setTbit b s).tbit = b := rfl
@[simp] theorem setTbit_hidden (b : Bool) (s : State) : (setTbit b s).hidden = s.hidden := rfl
@[simp] theorem setTbit_mem (b : Bool) (s : State) : (setTbit b s).mem = s.mem := rfl
@[simp] theorem setTbit_platform (b : Bool) (s : State) : (setTbit b s).platform = s.platform := rfl
@[simp] theorem setTbit_pending (b : Bool) (s : State) : (setTbit b s).pending = s.pending := rfl
@[simp] theorem setTbit_observed (b : Bool) (s : State) : (setTbit b s).observed = s.observed := rfl
@[simp] theorem setTbit_bus (b : Bool) (s : State) : (setTbit b s).bus = s.bus := rfl
@[simp] theorem setTbit_draws (b : Bool) (s : State) : (setTbit b s).draws = s.draws := rfl

/-! ## writeDigest -/

@[simp] theorem writeDigest_baBase (s : State) : (writeDigest s).baBase = s.baBase := rfl
@[simp] theorem writeDigest_baLen (s : State) : (writeDigest s).baLen = s.baLen := rfl
@[simp] theorem writeDigest_dataBase (s : State) : (writeDigest s).dataBase = s.dataBase := rfl
@[simp] theorem writeDigest_dataLen (s : State) : (writeDigest s).dataLen = s.dataLen := rfl
@[simp] theorem writeDigest_wsize (s : State) : (writeDigest s).wsize = s.wsize := rfl
@[simp] theorem writeDigest_bitIdx (s : State) : (writeDigest s).bitIdx = s.bitIdx := rfl
@[simp] theorem writeDigest_digest (s : State) : (writeDigest s).digest = s.hidden.acc := rfl
@[simp] theorem writeDigest_err (s : State) : (writeDigest s).err = s.err := rfl
@[simp] theorem writeDigest_tbit (s : State) : (writeDigest s).tbit = s.tbit := rfl
@[simp] theorem writeDigest_hidden (s : State) : (writeDigest s).hidden = s.hidden := rfl
@[simp] theorem writeDigest_mem (s : State) : (writeDigest s).mem = s.mem := rfl
@[simp] theorem writeDigest_platform (s : State) : (writeDigest s).platform = s.platform := rfl
@[simp] theorem writeDigest_pending (s : State) : (writeDigest s).pending = s.pending := rfl
@[simp] theorem writeDigest_observed (s : State) : (writeDigest s).observed = s.observed := rfl
@[simp] theorem writeDigest_bus (s : State) : (writeDigest s).bus = s.bus := rfl
@[simp] theorem writeDigest_draws (s : State) : (writeDigest s).draws = s.draws := rfl

/-! ## memRead -/

@[simp] theorem memRead_baBase (a : Nat) (s : State) : (memRead a s).2.baBase = s.baBase := rfl
@[simp] theorem memRead_baLen (a : Nat) (s : State) : (memRead a s).2.baLen = s.baLen := rfl
@[simp] theorem memRead_dataBase (a : Nat) (s : State) : (memRead a s).2.dataBase = s.dataBase := rfl
@[simp] theorem memRead_dataLen (a : Nat) (s : State) : (memRead a s).2.dataLen = s.dataLen := rfl
@[simp] theorem memRead_wsize (a : Nat) (s : State) : (memRead a s).2.wsize = s.wsize := rfl
@[simp] theorem memRead_bitIdx (a : Nat) (s : State) : (memRead a s).2.bitIdx = s.bitIdx := rfl
@[simp] theorem memRead_digest (a : Nat) (s : State) : (memRead a s).2.digest = s.digest := rfl
@[simp] theorem memRead_err (a : Nat) (s : State) : (memRead a s).2.err = s.err := rfl
@[simp] theorem memRead_tbit (a : Nat) (s : State) : (memRead a s).2.tbit = s.tbit := rfl
@[simp] theorem memRead_hidden (a : Nat) (s : State) : (memRead a s).2.hidden = s.hidden := rfl
@[simp] theorem memRead_mem (a : Nat) (s : State) : (memRead a s).2.mem = s.mem := rfl
@[simp] theorem memRead_platform (a : Nat) (s : State) : (memRead a s).2.platform = s.platform := rfl
@[simp] theorem memRead_pending (a : Nat) (s : State) : (memRead a s).2.pending = s.pending := rfl
@[simp] theorem memRead_observed (a : Nat) (s : State) : (memRead a s).2.observed = s.observed := rfl
@[simp] theorem memRead_bus (a : Nat) (s : State) : (memRead a s).2.bus = .read a :: s.bus := rfl
@[simp] theorem memRead_draws (a : Nat) (s : State) : (memRead a s).2.draws = s.draws := rfl

/-! ## memWrite -/

@[simp] theorem memWrite_baBase (a : Nat) (v : Byte) (s : State) : (memWrite a v s).baBase = s.baBase := rfl
@[simp] theorem memWrite_baLen (a : Nat) (v : Byte) (s : State) : (memWrite a v s).baLen = s.baLen := rfl
@[simp] theorem memWrite_dataBase (a : Nat) (v : Byte) (s : State) : (memWrite a v s).dataBase = s.dataBase := rfl
@[simp] theorem memWrite_dataLen (a : Nat) (v : Byte) (s : State) : (memWrite a v s).dataLen = s.dataLen := rfl
@[simp] theorem memWrite_wsize (a : Nat) (v : Byte) (s : State) : (memWrite a v s).wsize = s.wsize := rfl
@[simp] theorem memWrite_bitIdx (a : Nat) (v : Byte) (s : State) : (memWrite a v s).bitIdx = s.bitIdx := rfl
@[simp] theorem memWrite_digest (a : Nat) (v : Byte) (s : State) : (memWrite a v s).digest = s.digest := rfl
@[simp] theorem memWrite_err (a : Nat) (v : Byte) (s : State) : (memWrite a v s).err = s.err := rfl
@[simp] theorem memWrite_tbit (a : Nat) (v : Byte) (s : State) : (memWrite a v s).tbit = s.tbit := rfl
@[simp] theorem memWrite_hidden (a : Nat) (v : Byte) (s : State) : (memWrite a v s).hidden = s.hidden := rfl
@[simp] theorem memWrite_mem (a : Nat) (v : Byte) (s : State) : (memWrite a v s).mem = s.mem.write a v := rfl
@[simp] theorem memWrite_platform (a : Nat) (v : Byte) (s : State) : (memWrite a v s).platform = s.platform := rfl
@[simp] theorem memWrite_pending (a : Nat) (v : Byte) (s : State) : (memWrite a v s).pending = s.pending := rfl
@[simp] theorem memWrite_observed (a : Nat) (v : Byte) (s : State) : (memWrite a v s).observed = s.observed := rfl
@[simp] theorem memWrite_bus (a : Nat) (v : Byte) (s : State) : (memWrite a v s).bus = .write a v :: s.bus := rfl
@[simp] theorem memWrite_draws (a : Nat) (v : Byte) (s : State) : (memWrite a v s).draws = s.draws := rfl

/-! ## hostWrite -/

@[simp] theorem hostWrite_baBase (a : Nat) (b : Byte) (s : State) : (hostWrite a b s).baBase = s.baBase := rfl
@[simp] theorem hostWrite_baLen (a : Nat) (b : Byte) (s : State) : (hostWrite a b s).baLen = s.baLen := rfl
@[simp] theorem hostWrite_dataBase (a : Nat) (b : Byte) (s : State) : (hostWrite a b s).dataBase = s.dataBase := rfl
@[simp] theorem hostWrite_dataLen (a : Nat) (b : Byte) (s : State) : (hostWrite a b s).dataLen = s.dataLen := rfl
@[simp] theorem hostWrite_wsize (a : Nat) (b : Byte) (s : State) : (hostWrite a b s).wsize = s.wsize := rfl
@[simp] theorem hostWrite_bitIdx (a : Nat) (b : Byte) (s : State) : (hostWrite a b s).bitIdx = s.bitIdx := rfl
@[simp] theorem hostWrite_digest (a : Nat) (b : Byte) (s : State) : (hostWrite a b s).digest = s.digest := rfl
@[simp] theorem hostWrite_err (a : Nat) (b : Byte) (s : State) : (hostWrite a b s).err = s.err := rfl
@[simp] theorem hostWrite_tbit (a : Nat) (b : Byte) (s : State) : (hostWrite a b s).tbit = s.tbit := rfl
@[simp] theorem hostWrite_hidden (a : Nat) (b : Byte) (s : State) : (hostWrite a b s).hidden = s.hidden := rfl
@[simp] theorem hostWrite_mem (a : Nat) (b : Byte) (s : State) : (hostWrite a b s).mem = s.mem.write a b := rfl
@[simp] theorem hostWrite_platform (a : Nat) (b : Byte) (s : State) : (hostWrite a b s).platform = s.platform := rfl
@[simp] theorem hostWrite_pending (a : Nat) (b : Byte) (s : State) : (hostWrite a b s).pending = s.pending := rfl
@[simp] theorem hostWrite_observed (a : Nat) (b : Byte) (s : State) : (hostWrite a b s).observed = s.observed := rfl
@[simp] theorem hostWrite_bus (a : Nat) (b : Byte) (s : State) : (hostWrite a b s).bus = s.bus := rfl
@[simp] theorem hostWrite_draws (a : Nat) (b : Byte) (s : State) : (hostWrite a b s).draws = s.draws := rfl

/-! ## observe -/

@[simp] theorem observe_baBase (o : Observation) (s : State) : (observe o s).baBase = s.baBase := rfl
@[simp] theorem observe_baLen (o : Observation) (s : State) : (observe o s).baLen = s.baLen := rfl
@[simp] theorem observe_dataBase (o : Observation) (s : State) : (observe o s).dataBase = s.dataBase := rfl
@[simp] theorem observe_dataLen (o : Observation) (s : State) : (observe o s).dataLen = s.dataLen := rfl
@[simp] theorem observe_wsize (o : Observation) (s : State) : (observe o s).wsize = s.wsize := rfl
@[simp] theorem observe_bitIdx (o : Observation) (s : State) : (observe o s).bitIdx = s.bitIdx := rfl
@[simp] theorem observe_digest (o : Observation) (s : State) : (observe o s).digest = s.digest := rfl
@[simp] theorem observe_err (o : Observation) (s : State) : (observe o s).err = s.err := rfl
@[simp] theorem observe_tbit (o : Observation) (s : State) : (observe o s).tbit = s.tbit := rfl
@[simp] theorem observe_hidden (o : Observation) (s : State) : (observe o s).hidden = s.hidden := rfl
@[simp] theorem observe_mem (o : Observation) (s : State) : (observe o s).mem = s.mem := rfl
@[simp] theorem observe_platform (o : Observation) (s : State) : (observe o s).platform = s.platform := rfl
@[simp] theorem observe_pending (o : Observation) (s : State) : (observe o s).pending = s.pending := rfl
@[simp] theorem observe_observed (o : Observation) (s : State) : (observe o s).observed = o :: s.observed := rfl
@[simp] theorem observe_bus (o : Observation) (s : State) : (observe o s).bus = s.bus := rfl
@[simp] theorem observe_draws (o : Observation) (s : State) : (observe o s).draws = s.draws := rfl

/-! ## popPending -/

@[simp] theorem popPending_baBase (r : List HostOp) (s : State) : (popPending r s).baBase = s.baBase := rfl
@[simp] theorem popPending_baLen (r : List HostOp) (s : State) : (popPending r s).baLen = s.baLen := rfl
@[simp] theorem popPending_dataBase (r : List HostOp) (s : State) : (popPending r s).dataBase = s.dataBase := rfl
@[simp] theorem popPending_dataLen (r : List HostOp) (s : State) : (popPending r s).dataLen = s.dataLen := rfl
@[simp] theorem popPending_wsize (r : List HostOp) (s : State) : (popPending r s).wsize = s.wsize := rfl
@[simp] theorem popPending_bitIdx (r : List HostOp) (s : State) : (popPending r s).bitIdx = s.bitIdx := rfl
@[simp] theorem popPending_digest (r : List HostOp) (s : State) : (popPending r s).digest = s.digest := rfl
@[simp] theorem popPending_err (r : List HostOp) (s : State) : (popPending r s).err = s.err := rfl
@[simp] theorem popPending_tbit (r : List HostOp) (s : State) : (popPending r s).tbit = s.tbit := rfl
@[simp] theorem popPending_hidden (r : List HostOp) (s : State) : (popPending r s).hidden = s.hidden := rfl
@[simp] theorem popPending_mem (r : List HostOp) (s : State) : (popPending r s).mem = s.mem := rfl
@[simp] theorem popPending_platform (r : List HostOp) (s : State) : (popPending r s).platform = s.platform := rfl
@[simp] theorem popPending_pending (r : List HostOp) (s : State) : (popPending r s).pending = r := rfl
@[simp] theorem popPending_observed (r : List HostOp) (s : State) : (popPending r s).observed = s.observed := rfl
@[simp] theorem popPending_bus (r : List HostOp) (s : State) : (popPending r s).bus = s.bus := rfl
@[simp] theorem popPending_draws (r : List HostOp) (s : State) : (popPending r s).draws = s.draws := rfl

/-! ## applyReset -/

@[simp] theorem applyReset_baBase (s : State) : (applyReset s).baBase = 0 := rfl
@[simp] theorem applyReset_baLen (s : State) : (applyReset s).baLen = 0 := rfl
@[simp] theorem applyReset_dataBase (s : State) : (applyReset s).dataBase = 0 := rfl
@[simp] theorem applyReset_dataLen (s : State) : (applyReset s).dataLen = 0 := rfl
@[simp] theorem applyReset_wsize (s : State) : (applyReset s).wsize = 0 := rfl
@[simp] theorem applyReset_bitIdx (s : State) : (applyReset s).bitIdx = 0 := rfl
@[simp] theorem applyReset_digest (s : State) : (applyReset s).digest = 0 := rfl
@[simp] theorem applyReset_err (s : State) : (applyReset s).err = .none := rfl
@[simp] theorem applyReset_tbit (s : State) : (applyReset s).tbit = false := rfl
@[simp] theorem applyReset_hidden (s : State) : (applyReset s).hidden = Hidden.reset := rfl
@[simp] theorem applyReset_mem (s : State) : (applyReset s).mem = s.mem := rfl
@[simp] theorem applyReset_platform (s : State) : (applyReset s).platform = s.platform := rfl
@[simp] theorem applyReset_pending (s : State) : (applyReset s).pending = s.pending := rfl
@[simp] theorem applyReset_observed (s : State) : (applyReset s).observed = s.observed := rfl
@[simp] theorem applyReset_bus (s : State) : (applyReset s).bus = s.bus := rfl
@[simp] theorem applyReset_draws (s : State) : (applyReset s).draws = s.draws := rfl

@[simp] theorem memRead_value (a : Nat) (s : State) : (memRead a s).1 = s.mem.read a := rfl

end Sys2Proof.Machine
end

