-- ==== Sys2Proof/Laws/BitArray.lean ====
section
/-! SUPPORT. What the set and the test sequence do, all of it (spec/41_bitarray.md R131, R132, R136). -/

namespace Sys2Proof.Machine

theorem posOf_lt (i : Nat) : posOf i < 8 := Nat.mod_lt _ (by omega)

/-- The mask has one bit set, the index's (R131). -/
theorem getLsbD_maskOf (i j : Nat) : (maskOf i).getLsbD j = decide (j = posOf i) := by
  have := posOf_lt i
  unfold maskOf
  rw [BitVec.getLsbD_shiftLeft]
  by_cases h : j = posOf i
  · subst h; simp [this]
  · simp only [h, decide_false]
    by_cases h2 : j < posOf i
    · simp [h2]
    · have : j - posOf i ≠ 0 := by omega
      simp [this]

/-- The byte of an index in range lies in the array (R131). -/
theorem byteOf_lt {i len : Nat} (h : i < 8 * len) : byteOf i < len := by
  unfold byteOf; omega

/-- Everything `setBitSeq` does (R132). -/
theorem setBitSeq_eq (base : Nat) (i : Word) (s : State) :
    setBitSeq base i s =
      { s with
        mem := s.mem.write (addrOf base i.toNat) (s.mem.read (addrOf base i.toNat) ||| maskOf i.toNat)
        hidden := { s.hidden with index := i, byte := s.mem.read (addrOf base i.toNat) }
        bus := .write (addrOf base i.toNat) (s.mem.read (addrOf base i.toNat) ||| maskOf i.toNat)
          :: .read (addrOf base i.toNat) :: s.bus } := rfl

/-- Everything `testBitSeq` does (R136). -/
theorem testBitSeq_eq (base : Nat) (i : Word) (s : State) :
    testBitSeq base i s =
      ((s.mem.read (addrOf base i.toNat)).getLsbD (posOf i.toNat),
        { s with
          hidden := { s.hidden with index := i, byte := s.mem.read (addrOf base i.toNat) }
          bus := .read (addrOf base i.toNat) :: s.bus }) := rfl

/-- A bit of memory after one write of the set sequence: set before, or the bit of the index. -/
theorem getLsbD_setBit (m : Memory) (base i a j : Nat) :
    ((m.write (addrOf base i) (m.read (addrOf base i) ||| maskOf i)).read a).getLsbD j =
      ((m.read a).getLsbD j || decide (a = addrOf base i ∧ j = posOf i)) := by
  rw [Memory.read_write]
  split
  · rename_i h; subst h; simp [getLsbD_maskOf]
  · rename_i h; simp [h]

/-- Everything SETBIT does (R134). -/
theorem setbitSeq_eq (p : Params) (s : State) :
    setbitSeq p s =
      if capacity s.baLen.toNat ≤ s.bitIdx.toNat then .next { s with err := .outOfRange }
      else underPremise (bitsRefusal p s)
        { s with
          mem := s.mem.write (addrOf s.baBase.toNat s.bitIdx.toNat)
            (s.mem.read (addrOf s.baBase.toNat s.bitIdx.toNat) ||| maskOf s.bitIdx.toNat)
          err := .none
          hidden := { s.hidden with
            off := 0, idx := 0, index := s.bitIdx
            byte := s.mem.read (addrOf s.baBase.toNat s.bitIdx.toNat) }
          bus := .write (addrOf s.baBase.toNat s.bitIdx.toNat)
              (s.mem.read (addrOf s.baBase.toNat s.bitIdx.toNat) ||| maskOf s.bitIdx.toNat)
            :: .read (addrOf s.baBase.toNat s.bitIdx.toNat) :: s.bus } := by
  unfold setbitSeq indexOutOfRange
  simp only [decide_eq_true_eq]
  rfl

/-- Everything TESTBIT does (R137). -/
theorem testbitSeq_eq (p : Params) (s : State) :
    testbitSeq p s =
      if capacity s.baLen.toNat ≤ s.bitIdx.toNat then .next { s with err := .outOfRange }
      else underPremise (bitsRefusal p s)
        { s with
          tbit := (s.mem.read (addrOf s.baBase.toNat s.bitIdx.toNat)).getLsbD (posOf s.bitIdx.toNat)
          err := .none
          hidden := { s.hidden with
            off := 0, idx := 0, index := s.bitIdx
            byte := s.mem.read (addrOf s.baBase.toNat s.bitIdx.toNat) }
          bus := .read (addrOf s.baBase.toNat s.bitIdx.toNat) :: s.bus } := by
  unfold testbitSeq indexOutOfRange
  simp only [decide_eq_true_eq]
  rfl

end Sys2Proof.Machine
end

