-- ==== Sys2Proof/Laws/Decode.lean ====
section
/-! SUPPORT. A command word and its four fields determine each other (spec/30_encoding.md R90). -/

namespace Sys2Proof

theorem bit_cases (w : BitVec 1) : w = 0 ∨ w = 1 := by
  have := w.isLt
  rcases (by omega : w.toNat = 0 ∨ w.toNat = 1) with h | h
  · exact .inl (BitVec.eq_of_toNat_eq h)
  · exact .inr (BitVec.eq_of_toNat_eq h)

/-- Putting a word's fields together gives the word back. -/
theorem wordOf_fieldsOf (v : Word) : wordOf (fieldsOf v) = v := by
  apply BitVec.eq_of_getLsbD_eq
  intro i hi
  change ((v.extractLsb' 8 56 ++ v.extractLsb' 4 4 ++ v.extractLsb' 3 1 ++ v.extractLsb' 0 3 :
    BitVec (56 + 4 + 1 + 3))).getLsbD i = _
  simp only [BitVec.getLsbD_append, BitVec.getLsbD_extractLsb']
  split
  · simp [*]
  · split
    · rename_i h1 h2
      have : i = 3 := by omega
      subst this
      simp
    · split
      · rename_i h1 h2 h3
        have : 4 + (i - 3 - 1) = i := by omega
        rw [this]
        simp [h3]
      · have : 8 + (i - 3 - 1 - 4) = i := by omega
        rw [this]
        simp
        omega

/-- The fields of a command's word are the ones R91 gives the command. -/
theorem fieldsOf_encode (i : Instr) : fieldsOf (encode i) = encodeFields i := by
  cases i <;> decide

/-- Fields that decode to a command are well formed. -/
theorem wf_of_decodeFields {f : CmdFields} {i : Instr} (h : decodeFields f = .command i) : f.wf = true := by
  obtain ⟨z, y, w, o⟩ := f
  unfold decodeFields at h
  unfold CmdFields.wf CmdFields.opAssigned CmdFields.widthAllowed
  split at h
  · simp at h
  · rename_i hz
    have hz1 : z = 0 := by by_contra e; exact hz (.inl e)
    have hz2 : y = 0 := by by_contra e; exact hz (.inr e)
    subst hz1 hz2
    split at h
    · simp_all
    · split at h
      · simp_all
      · split at h
        · split at h <;> simp_all
        · split at h
          · split at h <;> simp_all
          · simp at h

end Sys2Proof
end

