-- ==== Sys2Proof/Laws/Hash.lean ====
section
/-! SUPPORT. What hashing a span does, all of it: the digest as a fold over the span's bytes, the hidden
registers and the reads at the memory port (spec/40_hash.md R112, R114). -/

namespace Sys2Proof.Machine

/-- The reads of a span in the order they happen (R114). -/
def spanReads (base len : Nat) : List Access := (List.range len).map fun k => .read (base + k)

theorem spanReads_succ (base len : Nat) :
    spanReads base (len + 1) = .read base :: spanReads (base + 1) len := by
  unfold spanReads
  rw [List.range_succ_eq_map]
  simp [Function.comp_def, Nat.add_assoc, Nat.add_comm 1]

/-- Everything the loop of R114 does. -/
theorem hashLoop_eq (N : Width) (base k : Nat) (s : State) (h : s.hidden.idx.toNat + k < 2 ^ 64) :
    hashLoop N base k s =
      { s with
        hidden := { s.hidden with
          acc := (s.mem.bytes (base + s.hidden.idx.toNat) k).foldl (fnvStep N) s.hidden.acc
          idx := s.hidden.idx + BitVec.ofNat 64 k }
        bus := (spanReads (base + s.hidden.idx.toNat) k).reverse ++ s.bus } := by
  induction k generalizing s with
  | zero => simp [hashLoop, spanReads]
  | succ k ih =>
    have hi : (s.hidden.idx + 1).toNat = s.hidden.idx.toNat + 1 := by
      rw [BitVec.toNat_add]
      exact Nat.mod_eq_of_lt (by simp; omega)
    have hk : s.hidden.idx + 1 + BitVec.ofNat 64 k = s.hidden.idx + BitVec.ofNat 64 (k + 1) := by
      rw [BitVec.ofNat_add, BitVec.add_assoc]
      exact congrArg _ (BitVec.add_comm 1#64 _)
    rw [hashLoop, ih (hashStep N base s) (by simp only [hashStep, memRead, hi]; omega)]
    simp only [hashStep, memRead, hi, hk, Memory.bytes_succ, spanReads_succ, List.foldl_cons,
      List.reverse_cons, List.append_assoc, List.cons_append, List.nil_append, Nat.add_assoc]

/-- Everything `hashSpan` does (R114): the digest of the span's bytes in ACC, IDX at the end, the reads. -/
theorem hashSpan_eq (N : Width) (base len : Nat) (s : State) (h : len < 2 ^ 64) :
    hashSpan N base len s =
      { s with
        hidden := { s.hidden with acc := fnv1a N (s.mem.bytes base len), idx := BitVec.ofNat 64 len }
        bus := (spanReads base len).reverse ++ s.bus } := by
  rw [hashSpan, hashLoop_eq N base len _ (by simpa using h)]
  simp [fnv1a]

/-- Everything a HASH command does when its premise holds. -/
theorem hashSeq_eq (p : Params) (N : Width) (s : State) :
    hashSeq p N s = underPremise (dataRefusal p s)
      { s with
        digest := fnv1a N (s.mem.bytes s.dataBase.toNat s.dataLen.toNat)
        err := .none
        hidden := { s.hidden with
          acc := fnv1a N (s.mem.bytes s.dataBase.toNat s.dataLen.toNat)
          off := 0
          idx := s.dataLen }
        bus := (spanReads s.dataBase.toNat s.dataLen.toNat).reverse ++ s.bus } := by
  rw [hashSeq, hashSpan_eq N _ _ _ s.dataLen.isLt]
  simp [succeed, writeDigest, beginCommand]

theorem fnvStep_lt (N : Width) (a : Word) (b : Byte) : (fnvStep N a b).toNat < 2 ^ N.bits := by
  have h : (a.toNat ^^^ b.toNat) * N.prime % 2 ^ N.bits < 2 ^ N.bits := Nat.mod_lt _ (Nat.two_pow_pos _)
  exact lt_of_le_of_lt (by simpa [fnvStep] using Nat.mod_le _ _) h

/-- The step as naturals: exact product, narrowed to the width (R111). -/
theorem fnvStep_toNat (N : Width) (a : Word) (b : Byte) :
    (fnvStep N a b).toNat = (a.toNat ^^^ b.toNat) * N.prime % 2 ^ N.bits := by
  have h : (a.toNat ^^^ b.toNat) * N.prime % 2 ^ N.bits < 2 ^ 64 :=
    lt_of_lt_of_le (Nat.mod_lt _ (Nat.two_pow_pos _)) (Nat.pow_le_pow_right (by omega) (by cases N <;> decide))
  simpa [fnvStep] using Nat.mod_eq_of_lt h

@[simp] theorem fnv1a_nil (N : Width) : fnv1a N [] = fnvBasis N := rfl

theorem fnv1a_append (N : Width) (bs cs : List Byte) :
    fnv1a N (bs ++ cs) = cs.foldl (fnvStep N) (fnv1a N bs) := by
  simp [fnv1a]

end Sys2Proof.Machine
end

