-- ==== Sys2Proof/Laws/Platform.lean ====
section
/-! SUPPORT. The premises on spans, said without the walk over the platform's map (spec/20_memory.md R68,
R70, R71). -/

namespace Sys2Proof.Machine

theorem Region.holds_iff {r : Region} {a : Nat} : r.holds a = true ↔ r.base ≤ a ∧ a < r.base + r.len := by
  simp [Region.holds]

theorem kindAt_cons_held {r : Region} {rs : List Region} {a : Nat} (h : r.base ≤ a ∧ a < r.base + r.len) :
    kindAt (r :: rs) a = r.kind := by
  rw [kindAt, if_pos (Region.holds_iff.2 h)]

theorem kindAt_cons_free {r : Region} {rs : List Region} {a : Nat}
    (h : ¬(r.base ≤ a ∧ a < r.base + r.len)) : kindAt (r :: rs) a = kindAt rs a := by
  rw [kindAt, if_neg fun e => h (Region.holds_iff.1 e)]

/-- The walk finds every address of the range plain exactly when every one is. -/
theorem rangePlain_iff {rs : List Region} {lo hi : Nat} :
    rangePlain rs lo hi = true ↔ ∀ a, lo ≤ a → a < hi → kindAt rs a = .plain := by
  induction rs generalizing lo hi with
  | nil => simp [rangePlain, kindAt]
  | cons r rs ih =>
    rw [rangePlain, Bool.and_eq_true, Bool.and_eq_true, Bool.or_eq_true, decide_eq_true_iff,
      decide_eq_true_iff, ih, ih]
    constructor
    · rintro ⟨⟨h, below⟩, above⟩ a hlo hhi
      by_cases ha : r.base ≤ a ∧ a < r.base + r.len
      · rw [kindAt_cons_held ha]
        rcases h with h | h
        · exact h
        · omega
      · rw [kindAt_cons_free ha]
        by_cases hb : a < r.base
        · exact below a hlo (by omega)
        · exact above a (by omega) hhi
    · intro h
      refine ⟨⟨?_, fun a hlo hhi => ?_⟩, fun a hlo hhi => ?_⟩
      · by_cases hk : r.kind = .plain
        · exact .inl hk
        · refine .inr (Nat.le_of_not_lt fun hlt => hk ?_)
          have := h (max lo r.base) (by omega) (by omega)
          rwa [kindAt_cons_held (by omega)] at this
      · have := h a hlo (by omega)
        rwa [kindAt_cons_free (by omega)] at this
      · have := h a (by omega) hhi
        rwa [kindAt_cons_free (by omega)] at this

/-- R70 holds of a span exactly when the model does not refuse it. -/
theorem spanRefusal_eq_none_iff {p : Params} {rs : List Region} {base len : Nat} {x y : Refusal} :
    spanRefusal p rs base len x y = none ↔
      (len ≠ 0 → base + len ≤ 2 ^ p.aw ∧ ∀ a, base ≤ a → a < base + len → kindAt rs a = .plain) := by
  unfold spanRefusal
  split
  · rename_i h; simp [h]
  · rename_i h
    split
    · rename_i hw; simp [h, Nat.not_le.2 hw]
    · rename_i hw
      split
      · rename_i hp
        exact iff_of_true rfl fun _ => ⟨Nat.le_of_not_lt hw, rangePlain_iff.1 hp⟩
      · rename_i hp
        simp only [reduceCtorEq, false_iff]
        exact fun hall => hp (rangePlain_iff.2 (hall h).2)

theorem spansShareByte_iff {b l b' l' : Nat} :
    spansShareByte b l b' l' = true ↔ ∃ a, (b ≤ a ∧ a < b + l) ∧ b' ≤ a ∧ a < b' + l' := by
  unfold spansShareByte
  rw [decide_eq_true_iff]
  constructor
  · rintro ⟨h1, h2, h3, h4⟩
    exact ⟨max b b', by omega, by omega⟩
  · rintro ⟨a, h⟩
    omega

/-- What a command judged by a premise answers. -/
theorem underPremise_next_iff {r : Option Refusal} {t u : State} :
    underPremise r t = .next u ↔ r = none ∧ u = t := by
  cases r <;> simp [underPremise, eq_comm]

@[simp] theorem underPremise_none (t : State) : underPremise none t = .next t := rfl

@[simp] theorem underPremise_some (e : Refusal) (t : State) : underPremise (some e) t = .refused e := rfl

theorem underPremise_ne_fault (r : Option Refusal) (t : State) (f : Fault) : underPremise r t ≠ .fault f := by
  cases r <;> simp [underPremise]

end Sys2Proof.Machine
end

