-- ==== Sys2Proof/Laws/Insert.lean ====
section
/-! SUPPORT. What the window loop does: one turn of it in full, and over any number of turns its frame, its
counters, the bits it sets, its accesses and that memory stays canonical (spec/42_insert.md R153 to R160). -/

namespace Sys2Proof.Machine

theorem reduce_toNat (d : Word) (cap : Nat) : (reduce d cap).toNat = d.toNat % cap := by
  have : d.toNat % cap ≤ d.toNat := Nat.mod_le _ _
  simp only [reduce, BitVec.toNat_ofNat]
  exact Nat.mod_eq_of_lt (lt_of_le_of_lt this d.isLt)

/-- The bit index of the window at offset `o` of the data at `dataBase` (R153, R159). -/
def windowIndex (N : Width) (m : Memory) (dataBase w cap o : Nat) : Nat :=
  (fnv1a N (m.bytes (dataBase + o) w)).toNat % cap

/-- Everything one turn of the window loop does (R154). -/
theorem insertStep_eq (N : Width) (db w bb cap : Nat) (s : State) (h : w < 2 ^ 64) :
    insertStep N db w bb cap s =
      let i := windowIndex N s.mem db w cap s.hidden.off.toNat
      { s with
        mem := s.mem.write (addrOf bb i) (s.mem.read (addrOf bb i) ||| maskOf i)
        hidden :=
          { acc := fnv1a N (s.mem.bytes (db + s.hidden.off.toNat) w)
            off := s.hidden.off + 1
            idx := BitVec.ofNat 64 w
            index := reduce (fnv1a N (s.mem.bytes (db + s.hidden.off.toNat) w)) cap
            byte := s.mem.read (addrOf bb i) }
        bus := .write (addrOf bb i) (s.mem.read (addrOf bb i) ||| maskOf i) :: .read (addrOf bb i)
          :: ((spanReads (db + s.hidden.off.toNat) w).reverse ++ s.bus) } := by
  rw [insertStep, hashSpan_eq N _ _ _ h]
  simp only [setBitSeq_eq, reduce_toNat, windowIndex]

/-- The window loop changes memory, the hidden registers and the accesses made, and nothing else. -/
theorem insertLoop_frame (N : Width) (db w bb cap k : Nat) (s : State) (h : w < 2 ^ 64) :
    insertLoop N db w bb cap k s =
      { s with
        mem := (insertLoop N db w bb cap k s).mem
        hidden := (insertLoop N db w bb cap k s).hidden
        bus := (insertLoop N db w bb cap k s).bus } := by
  induction k generalizing s with
  | zero => rfl
  | succ k ih =>
    rw [insertLoop]
    conv_lhs => rw [ih]
    rw [insertStep_eq N db w bb cap s h]

theorem off_succ {s : State} {k : Nat} (h : s.hidden.off.toNat + (k + 1) < 2 ^ 64) :
    (s.hidden.off + 1).toNat = s.hidden.off.toNat + 1 := by
  rw [BitVec.toNat_add]
  exact Nat.mod_eq_of_lt (by simp; omega)

/-- OFF has advanced once per window, and IDX stands at the end of a window (R155, R157). -/
theorem insertLoop_counters (N : Width) (db w bb cap k : Nat) (s : State) (h : w < 2 ^ 64)
    (hk : s.hidden.off.toNat + k < 2 ^ 64) :
    (insertLoop N db w bb cap k s).hidden.off.toNat = s.hidden.off.toNat + k ∧
      (insertLoop N db w bb cap k s).hidden.idx = if k = 0 then s.hidden.idx else BitVec.ofNat 64 w := by
  induction k generalizing s with
  | zero => simp [insertLoop]
  | succ k ih =>
    have ho : (insertStep N db w bb cap s).hidden.off.toNat = s.hidden.off.toNat + 1 := by
      rw [insertStep_eq N db w bb cap s h]; exact off_succ hk
    have hi : (insertStep N db w bb cap s).hidden.idx = BitVec.ofNat 64 w := by
      rw [insertStep_eq N db w bb cap s h]
    obtain ⟨h1, h2⟩ := ih (insertStep N db w bb cap s) (by omega)
    rw [insertLoop, h1, h2, ho, hi]
    exact ⟨by omega, by simp⟩

/-- The window loop keeps the canonical form of memory. -/
theorem insertLoop_wf (N : Width) (db w bb cap k : Nat) (s : State) (h : w < 2 ^ 64)
    (hm : s.mem.wf = true) : (insertLoop N db w bb cap k s).mem.wf = true := by
  induction k generalizing s with
  | zero => exact hm
  | succ k ih =>
    rw [insertLoop]
    refine ih _ ?_
    rw [insertStep_eq N db w bb cap s h]
    exact Memory.wf_write _ _ hm

/-- Every entry the window loop leaves is an old one or lies in the bit array. -/
theorem insertLoop_entries (N : Width) (db w bb len k : Nat) (s : State) (h : w < 2 ^ 64) (hl : 0 < len)
    {c : Host.Cell} (hc : c ∈ (insertLoop N db w bb (8 * len) k s).mem) :
    c ∈ s.mem ∨ bb ≤ c.1 ∧ c.1 < bb + len := by
  induction k generalizing s with
  | zero => exact .inl hc
  | succ k ih =>
    rw [insertLoop] at hc
    rcases ih _ hc with hc | hc
    · rw [insertStep_eq N db w bb _ s h] at hc
      refine (Memory.mem_write hc).imp id fun e => ?_
      have := byteOf_lt (i := windowIndex N s.mem db w (8 * len) s.hidden.off.toNat) (len := len)
        (Nat.mod_lt _ (by omega))
      rw [e, addrOf]
      omega
    · exact .inr hc

/-- Which bits of memory are 1 after the window loop: those that were, and the bits of the windows; the
windows are taken from the memory the loop started with, since none of them touches the array (R159). -/
theorem insertLoop_bits (N : Width) (db w bb len k : Nat) (s : State) (h : w < 2 ^ 64) (hl : 0 < len)
    (hk : s.hidden.off.toNat + k < 2 ^ 64)
    (hd : ∀ o, s.hidden.off.toNat ≤ o → o < s.hidden.off.toNat + k → ∀ a, db + o ≤ a → a < db + o + w →
      ¬(bb ≤ a ∧ a < bb + len)) (a j : Nat) :
    ((insertLoop N db w bb (8 * len) k s).mem.read a).getLsbD j = true ↔
      (s.mem.read a).getLsbD j = true ∨
        ∃ o, s.hidden.off.toNat ≤ o ∧ o < s.hidden.off.toNat + k ∧
          a = addrOf bb (windowIndex N s.mem db w (8 * len) o) ∧
          j = posOf (windowIndex N s.mem db w (8 * len) o) := by
  induction k generalizing s with
  | zero => simp only [insertLoop, Nat.add_zero]; constructor
            · exact .inl
            · rintro (h | ⟨o, h1, h2, -⟩)
              · exact h
              · omega
  | succ k ih =>
    have ho := off_succ hk
    have hin : ∀ o, addrOf bb (windowIndex N s.mem db w (8 * len) o) < bb + len := fun o => by
      have := byteOf_lt (i := windowIndex N s.mem db w (8 * len) o) (len := len) (Nat.mod_lt _ (by omega))
      unfold addrOf; omega
    rw [insertLoop, insertStep_eq N db w bb _ s h]
    rw [ih _ (by simp only [ho]; omega) (fun o h1 h2 => hd o (by simp only [ho] at h1; omega)
      (by simp only [ho] at h2; omega))]
    simp only [ho, getLsbD_setBit, Bool.or_eq_true, decide_eq_true_eq]
    have hw : ∀ o, s.hidden.off.toNat ≤ o → o < s.hidden.off.toNat + (k + 1) →
        windowIndex N (s.mem.write
            (addrOf bb (windowIndex N s.mem db w (8 * len) s.hidden.off.toNat))
            (s.mem.read (addrOf bb (windowIndex N s.mem db w (8 * len) s.hidden.off.toNat)) |||
              maskOf (windowIndex N s.mem db w (8 * len) s.hidden.off.toNat))) db w (8 * len) o =
          windowIndex N s.mem db w (8 * len) o := by
      intro o h1 h2
      unfold windowIndex
      rw [Memory.bytes_congr]
      intro b hb1 hb2
      refine Memory.read_write_other fun e => hd o h1 h2 b hb1 hb2 ⟨?_, ?_⟩
      · rw [e]; exact Nat.le_add_right _ _
      · rw [e]; exact hin _
    constructor
    · rintro ((hb | ⟨ha, hj⟩) | ⟨o, h1, h2, ha, hj⟩)
      · exact .inl hb
      · exact .inr ⟨_, le_rfl, by omega, ha, hj⟩
      · rw [hw o (by omega) (by omega)] at ha hj
        exact .inr ⟨o, by omega, by omega, ha, hj⟩
    · rintro (hb | ⟨o, h1, h2, ha, hj⟩)
      · exact .inl (.inl hb)
      · by_cases ho' : o = s.hidden.off.toNat
        · subst ho'; exact .inl (.inr ⟨ha, hj⟩)
        · refine .inr ⟨o, by omega, by omega, ?_⟩
          rw [hw o (by omega) (by omega)]
          exact ⟨ha, hj⟩

/-- The accesses of one turn of the window loop at offset `o`, the newest first (R154). -/
def windowAccesses (N : Width) (m : Memory) (db w bb cap o : Nat) : List Access :=
  .write (addrOf bb (windowIndex N m db w cap o))
      (m.read (addrOf bb (windowIndex N m db w cap o)) ||| maskOf (windowIndex N m db w cap o)) ::
    .read (addrOf bb (windowIndex N m db w cap o)) :: (spanReads (db + o) w).reverse

theorem insertStep_bus (N : Width) (db w bb cap : Nat) (s : State) (h : w < 2 ^ 64) :
    (insertStep N db w bb cap s).bus = windowAccesses N s.mem db w bb cap s.hidden.off.toNat ++ s.bus := by
  rw [insertStep_eq N db w bb cap s h]
  rfl

theorem windowAccesses_writes (N : Width) (m : Memory) (db w bb cap o : Nat) :
    (windowAccesses N m db w bb cap o).countP Access.isWrite = 1 := by
  have : ((spanReads (db + o) w).reverse).countP Access.isWrite = 0 := by
    rw [List.countP_eq_zero]
    intro x hx
    simp only [spanReads, List.mem_reverse, List.mem_map] at hx
    obtain ⟨_, -, rfl⟩ := hx
    simp [Access.isWrite]
  rw [windowAccesses, List.countP_cons_of_pos rfl, List.countP_cons_of_neg (by simp [Access.isWrite]), this]

theorem windowAccesses_length (N : Width) (m : Memory) (db w bb cap o : Nat) :
    (windowAccesses N m db w bb cap o).length = w + 2 := by
  simp [windowAccesses, spanReads]

/-- A window's accesses lie in the array, or are reads of the window. -/
theorem windowAccesses_addr (N : Width) (m : Memory) (db w bb len o : Nat) (hl : 0 < len) {x : Access}
    (hx : x ∈ windowAccesses N m db w bb (8 * len) o) :
    (bb ≤ x.addr ∧ x.addr < bb + len) ∨
      x.isWrite = false ∧ db + o ≤ x.addr ∧ x.addr < db + o + w := by
  have hin := byteOf_lt (i := windowIndex N m db w (8 * len) o) (len := len) (Nat.mod_lt _ (by omega))
  rcases List.mem_cons.1 hx with rfl | hx
  · left; simp only [Access.addr, addrOf]; omega
  · rcases List.mem_cons.1 hx with rfl | hx
    · left; simp only [Access.addr, addrOf]; omega
    · simp only [spanReads, List.mem_reverse, List.mem_map, List.mem_range] at hx
      obtain ⟨i, hi, rfl⟩ := hx
      right
      simp only [Access.addr]
      exact ⟨rfl, by omega, by omega⟩

/-- The accesses of the window loop: per window one write, into the array, and `w + 1` reads, of the array
and of the window (R157, R160). -/
theorem insertLoop_bus (N : Width) (db w bb len k : Nat) (s : State) (h : w < 2 ^ 64) (hl : 0 < len)
    (hk : s.hidden.off.toNat + k < 2 ^ 64) :
    ∃ new, (insertLoop N db w bb (8 * len) k s).bus = new ++ s.bus ∧ new.length = k * (w + 2) ∧
      new.countP Access.isWrite = k ∧
      ∀ x ∈ new, (bb ≤ x.addr ∧ x.addr < bb + len) ∨
        x.isWrite = false ∧ db + s.hidden.off.toNat ≤ x.addr ∧
          x.addr + 1 < db + s.hidden.off.toNat + k + w := by
  induction k generalizing s with
  | zero => exact ⟨[], by simp [insertLoop]⟩
  | succ k ih =>
    have ho : (insertStep N db w bb (8 * len) s).hidden.off.toNat = s.hidden.off.toNat + 1 := by
      rw [insertStep_eq N db w bb _ s h]; exact off_succ hk
    obtain ⟨new, h1, h2, h3, h4⟩ := ih (insertStep N db w bb (8 * len) s) (by omega)
    refine ⟨new ++ windowAccesses N s.mem db w bb (8 * len) s.hidden.off.toNat, ?_, ?_, ?_, ?_⟩
    · rw [insertLoop, h1, insertStep_bus N db w bb _ s h, List.append_assoc]
    · rw [List.length_append, h2, windowAccesses_length]; ring
    · rw [List.countP_append, h3, windowAccesses_writes]
    · intro x hx
      rcases List.mem_append.1 hx with hx | hx
      · exact (h4 x hx).imp id fun ⟨h, h', h''⟩ => ⟨h, by omega, by omega⟩
      · exact (windowAccesses_addr N s.mem db w bb len s.hidden.off.toNat hl hx).imp id
          fun ⟨h, h', h''⟩ => ⟨h, by omega, by omega⟩

/-- Everything an INSERT does, up to the window loop (R154). -/
theorem insertSeq_eq (p : Params) (N : Width) (s : State) :
    insertSeq p N s =
      if s.wsize = 0 ∨ s.baLen = 0 then .next { s with err := .invalidArgument }
      else underPremise
        (if windowCount p s.dataLen.toNat s.wsize.toNat = 0 then overlapRefusal s else insertRefusal p s)
        { insertWindows p N s with err := .none } := by
  unfold insertSeq insertArgumentInvalid
  simp only [decide_eq_true_eq]
  rfl

theorem windowCount_le (p : Params) {n w : Nat} (hw : 0 < w) : windowCount p n w ≤ n := by
  unfold windowCount
  split
  · omega
  · split <;> omega

/-- The last window ends inside the data (R157). -/
theorem windowCount_fits (p : Params) {n w o : Nat} (h : o < windowCount p n w) : o + w ≤ n := by
  unfold windowCount at h
  split at h
  · omega
  · split at h <;> omega

end Sys2Proof.Machine
end

