-- ==== Sys2Proof/Laws/Exec.lean ====
section
/-! SUPPORT. The six commands over `exec`: each in one equation, the premises as the terms of Safety.lean say
them, and the window loop of this hardware's INSERTs (spec/30_encoding.md R94). -/

namespace Sys2Proof.Machine

theorem word_toNat_ne_zero {v : Word} : v.toNat ≠ 0 ↔ v ≠ 0 := by
  constructor
  · rintro h rfl; exact h rfl
  · intro h e; exact h (BitVec.eq_of_toNat_eq e)

theorem dataRefusal_none_iff {p : Params} {s : State} : dataRefusal p s = none ↔ DataSpanOkAt p s := by
  unfold dataRefusal DataSpanOkAt InDataSpan
  rw [spanRefusal_eq_none_iff, word_toNat_ne_zero]
  simp only [and_imp]

theorem bitsRefusal_none_iff {p : Params} {s : State} : bitsRefusal p s = none ↔ BitArrayOkAt p s := by
  unfold bitsRefusal BitArrayOkAt InBitArray
  rw [spanRefusal_eq_none_iff, word_toNat_ne_zero]
  simp only [and_imp]

theorem overlapRefusal_none_iff {s : State} : overlapRefusal s = none ↔ SpansDisjoint s := by
  unfold overlapRefusal SpansDisjoint InDataSpan InBitArray
  split
  · rename_i h
    obtain ⟨a, h1, h2⟩ := spansShareByte_iff.1 h
    simp only [reduceCtorEq, false_iff]
    exact fun hd => hd a h1 h2
  · rename_i h
    exact iff_of_true rfl fun a h1 h2 => h (spansShareByte_iff.2 ⟨a, h1, h2⟩)

theorem overlapRefusal_of_share {s : State} {a : Nat} (h1 : InDataSpan s a) (h2 : InBitArray s a) :
    overlapRefusal s = some .spansOverlap :=
  if_pos (spansShareByte_iff.2 ⟨a, h1, h2⟩)

theorem insertRefusal_none_iff {p : Params} {s : State} : insertRefusal p s = none ↔ InsertOkAt p s := by
  unfold insertRefusal InsertOkAt
  rw [Option.or_eq_none_iff, Option.or_eq_none_iff, dataRefusal_none_iff, bitsRefusal_none_iff,
    overlapRefusal_none_iff]

/-- The commands of this hardware are those of the engine with its parameters (R7, R8). -/
theorem runCommand_params (i : Instr) (s : State) : runCommand Config.params i s = exec i s := by
  cases i <;> rfl

theorem runCommand_insertOf (p : Params) (N : Width) (s : State) :
    runCommand p (insertOf N) s = insertSeq p N s := by
  cases N <;> rfl

theorem exec_hashOf (N : Width) (s : State) : exec (hashOf N) s = hashSeq Config.params N s := by
  cases N <;> rfl

theorem exec_insertOf (N : Width) (s : State) : exec (insertOf N) s = insertSeq Config.params N s := by
  cases N <;> rfl

theorem exec_setbit (s : State) : exec .setbit s = setbitSeq Config.params s := rfl

theorem exec_testbit (s : State) : exec .testbit s = testbitSeq Config.params s := rfl

/-- The windows the legacy bound leaves (R8, R152). -/
theorem lt_windowCount_legacy_iff {p : Params} (hp : p.legacyBound = true) {n w o : Nat} :
    o < windowCount p n w ↔ o + w < n := by
  unfold windowCount
  split
  · omega
  · omega

/-- The windows of this hardware (R8, R152). -/
theorem lt_windowCount_iff {n w o : Nat} (_hw : 0 < w) : o < windowCount Config.params n w ↔ o + w ≤ n := by
  unfold windowCount Config.params
  split
  · omega
  · simp only [Bool.false_eq_true, ↓reduceIte]; omega

theorem windowCount_eq_zero_iff {n w : Nat} (hw : 0 < w) : windowCount Config.params n w = 0 ↔ n < w := by
  have := lt_windowCount_iff (n := n) (o := 0) hw
  omega

theorem beginCommand_off (s : State) : (beginCommand s).hidden.off.toNat = 0 := rfl

/-- What the windows change: memory, the hidden registers and the accesses made. -/
theorem insertWindows_frame (p : Params) (N : Width) (s : State) :
    insertWindows p N s =
      { s with
        mem := (insertWindows p N s).mem
        hidden := (insertWindows p N s).hidden
        bus := (insertWindows p N s).bus } := by
  conv_lhs => rw [insertWindows, insertLoop_frame N _ _ _ _ _ _ s.wsize.isLt]
  rfl

/-- An index in range and the byte and position it decodes to determine each other (R131). -/
theorem addrOf_posOf_iff {base k j i : Nat} (hj : j < 8) :
    (base + k = addrOf base i ∧ j = posOf i) ↔ i = 8 * k + j := by
  unfold addrOf posOf byteOf
  omega

/-- The bits of memory after the windows of an INSERT under its premises. -/
theorem insertWindows_bits_at (p : Params) (N : Width) (s : State) (hw : s.wsize ≠ 0) (hl : s.baLen ≠ 0)
    (hd : SpansDisjoint s) (a j : Nat) :
    ((insertWindows p N s).mem.read a).getLsbD j = true ↔
      (s.mem.read a).getLsbD j = true ∨
        ∃ o, o < windowCount p s.dataLen.toNat s.wsize.toNat ∧
          a = addrOf s.baBase.toNat ((fnv1a N (windowAt s o)).toNat % (8 * s.baLen.toNat)) ∧
          j = posOf ((fnv1a N (windowAt s o)).toNat % (8 * s.baLen.toNat)) := by
  have hw' : 0 < s.wsize.toNat := Nat.pos_of_ne_zero (word_toNat_ne_zero.2 hw)
  have hl' : 0 < s.baLen.toNat := Nat.pos_of_ne_zero (word_toNat_ne_zero.2 hl)
  have hc := windowCount_le p (n := s.dataLen.toNat) hw'
  have hn := s.dataLen.isLt
  rw [insertWindows, capacity, insertLoop_bits N _ _ _ _ _ _ s.wsize.isLt hl'
    (by rw [beginCommand_off]; omega)]
  · simp only [beginCommand_off, Nat.zero_le, Nat.zero_add, true_and]
    rfl
  · intro o _ ho b h1 h2
    rw [beginCommand_off, Nat.zero_add] at ho
    have := windowCount_fits p ho
    exact hd b ⟨by omega, by omega⟩

theorem insertWindows_bits (N : Width) (s : State) (hw : s.wsize ≠ 0) (hl : s.baLen ≠ 0)
    (hd : SpansDisjoint s) (a j : Nat) :
    ((insertWindows Config.params N s).mem.read a).getLsbD j = true ↔
      (s.mem.read a).getLsbD j = true ∨
        ∃ o, o + s.wsize.toNat ≤ s.dataLen.toNat ∧
          a = addrOf s.baBase.toNat ((fnv1a N (windowAt s o)).toNat % (8 * s.baLen.toNat)) ∧
          j = posOf ((fnv1a N (windowAt s o)).toNat % (8 * s.baLen.toNat)) := by
  simp only [insertWindows_bits_at Config.params N s hw hl hd,
    lt_windowCount_iff (Nat.pos_of_ne_zero (word_toNat_ne_zero.2 hw))]

end Sys2Proof.Machine
end

