-- ==== Sys2Proof/Laws/PerInstr.lean ====
section
/-! SUPPORT. What holds of every command as syntax (spec/30_encoding.md R90, R91): it is well formed, the fields of its
word pass every check on a command word, and its word is below 16. -/

namespace Sys2Proof.Laws.EncodesWellFormed

/-- The command and the fields of its word are well formed, and bits 63:4 of its word are 0. -/
def Statement (i : Instr) : Prop :=
  i.wf = true ∧ (fieldsOf (encode i)).wf = true ∧ (encode i).toNat < 16

theorem hash32 : Statement .hash32 := by unfold Statement; decide

theorem hash64 : Statement .hash64 := by unfold Statement; decide

theorem insert32 : Statement .insert32 := by unfold Statement; decide

theorem insert64 : Statement .insert64 := by unfold Statement; decide

theorem setbit : Statement .setbit := by unfold Statement; decide

theorem testbit : Statement .testbit := by unfold Statement; decide

end Sys2Proof.Laws.EncodesWellFormed
end

