-- ==== Sys2Proof/Laws/Run.lean ====
section
/-! SUPPORT. One step by the next item of the host, the issue of each command word, and runs in pieces
(spec/44_host_port.md R184, R185; spec/70_reset_and_hazards.md R248). -/

namespace Sys2Proof.Machine

theorem step_of_pending {s : State} {op : HostOp} {rest : List HostOp} (h : s.pending = op :: rest) :
    step s = perform Config.params op { s with pending := rest } := by
  simp [step, stepAt, h, popPending]

theorem step_of_idle {s : State} (h : s.pending = []) : step s = .next s := by
  simp [step, stepAt, h]

/-- The issue of a word of a command runs it. -/
theorem issue_of_decode {v : Word} {i : Instr} (h : decode v = .command i) (s : State) :
    issue Config.params v s = exec i s := by
  rw [issue, h]
  exact runCommand_params i s

theorem issue_of_illegal {v : Word} (h : decode v = .illegal) (p : Params) (s : State) :
    issue p v s = .next { s with err := .illegalCommand } := by
  rw [issue, h]
  rfl

/-- The command words of R91 issue their commands. -/
theorem issue_hash32 (s : State) : issue Config.params 0x01#64 s = exec .hash32 s := rfl

theorem issue_hash64 (s : State) : issue Config.params 0x09#64 s = exec .hash64 s := rfl

theorem issue_insert32 (s : State) : issue Config.params 0x02#64 s = exec .insert32 s := rfl

theorem issue_insert64 (s : State) : issue Config.params 0x0A#64 s = exec .insert64 s := rfl

theorem issue_setbit (s : State) : issue Config.params 0x03#64 s = exec .setbit s := rfl

theorem issue_testbit (s : State) : issue Config.params 0x04#64 s = exec .testbit s := rfl

/-- What each write of an operand register does (R181), for values that fit it. -/
theorem truncate_of_lt {v : Word} (h : v.toNat < 2 ^ 32) : truncate Config.params v = v :=
  BitVec.eq_of_toNat_eq (by simp [truncate, Config.params]; omega)

theorem perform_baBase {v : Word} (h : v.toNat < 2 ^ 32) (s : State) :
    perform Config.params (.regWrite 0 v) s = .next { s with baBase := v } := by
  simp only [perform, regWrite, truncate_of_lt h]

theorem perform_baLen {v : Word} (h : v.toNat < 2 ^ 32) (s : State) :
    perform Config.params (.regWrite 1 v) s = .next { s with baLen := v } := by
  simp only [perform, regWrite, truncate_of_lt h]

theorem perform_dataBase {v : Word} (h : v.toNat < 2 ^ 32) (s : State) :
    perform Config.params (.regWrite 2 v) s = .next { s with dataBase := v } := by
  simp only [perform, regWrite, truncate_of_lt h]

theorem perform_dataLen {v : Word} (h : v.toNat < 2 ^ 32) (s : State) :
    perform Config.params (.regWrite 3 v) s = .next { s with dataLen := v } := by
  simp only [perform, regWrite, truncate_of_lt h]

theorem perform_wsize {v : Word} (h : v.toNat < 2 ^ 32) (s : State) :
    perform Config.params (.regWrite 4 v) s = .next { s with wsize := v } := by
  simp only [perform, regWrite, truncate_of_lt h]

theorem perform_bitIdx (v : Word) (s : State) :
    perform Config.params (.regWrite 5 v) s = .next { s with bitIdx := v } := rfl

/-- A write to CMD issues the command (R184). -/
theorem perform_cmd (v : Word) (s : State) : perform Config.params (.regWrite 8 v) s = issue Config.params v s := rfl

/-- The host's reads of DIGEST and STATUS (R180). -/
theorem perform_readDigest (s : State) :
    perform Config.params (.regRead 6) s = .next (observe (.reg 6 s.digest) s) := rfl

theorem perform_readStatus (s : State) :
    perform Config.params (.regRead 7) s = .next (observe (.reg 7 s.status) s) := rfl

theorem run_zero (s : State) : Sys2Proof.core.run 0 s = .next s := rfl

/-- A run of one step more. -/
theorem run_succ_of_step {s t : State} {k : Nat} (h : step s = .next t) :
    Sys2Proof.core.run (k + 1) s = Sys2Proof.core.run k t := by
  have h' : Sys2Proof.core.step s = .next t := h
  simp [Host.Core.run, h']

/-- A run of one step more, by the next item of the host. -/
theorem run_succ_of_perform {s t : State} {op : HostOp} {rest : List HostOp} {k : Nat}
    (hp : s.pending = op :: rest) (h : perform Config.params op { s with pending := rest } = .next t) :
    Sys2Proof.core.run (k + 1) s = Sys2Proof.core.run k t :=
  run_succ_of_step ((step_of_pending hp).trans h)

/-- A run in two pieces. -/
theorem run_add_of_run {a b : Nat} {s t : State} (h : Sys2Proof.core.run a s = .next t) :
    Sys2Proof.core.run (a + b) s = Sys2Proof.core.run b t := by
  induction a generalizing s with
  | zero =>
    rw [run_zero] at h
    rw [Nat.zero_add, Host.Outcome.next.inj h]
  | succ a ih =>
    cases hs : step s with
    | next u =>
      rw [run_succ_of_step hs] at h
      rw [Nat.add_right_comm, run_succ_of_step hs, ih h]
    | fault e =>
      have hs' : Sys2Proof.core.step s = .fault e := hs
      simp [Host.Core.run, hs'] at h
    | refused e =>
      have hs' : Sys2Proof.core.step s = .refused e := hs
      simp [Host.Core.run, hs'] at h

end Sys2Proof.Machine
end

