-- ==== Sys2Proof/Tests/Slice0.lean ====
section
/-! SUPPORT. The model's own tests. Expected results come from spec/95_test_vectors.md (each test names its
vector) and from the field layout of spec/30_encoding.md R90; the theorems `test_meets_...` show that the
hypotheses of each statement in Sys2Proof/Certificates/Slice0/Obligations.lean can be met. -/

namespace Sys2Proof.Tests

open Sys2Proof Sys2Proof.Machine

/-! ## Helpers -/

/-- The next state of an outcome, or the reset state where there is none. -/
def nextOf : Host.Outcome State Fault Refusal → State
  | .next t => t
  | .fault _ => State.reset
  | .refused _ => State.reset

/-- The refusal of an outcome. -/
def refusalOf : Host.Outcome State Fault Refusal → Option Refusal
  | .next _ => none
  | .fault _ => none
  | .refused e => some e

/-- The fault of an outcome. -/
def faultOf : Host.Outcome State Fault Refusal → Option Fault
  | .next _ => none
  | .fault e => some e
  | .refused _ => none

/-- The bytes `bs` at addresses from `a` on, over empty memory. -/
def bytesAt : Nat → List Byte → Memory → Memory
  | _, [], m => m
  | a, b :: bs, m => (bytesAt (a + 1) bs m).write a b

/-- A machine with the array `arr` at 0x100, the data `data` at 0x200, window size `w` and bit index `i`. -/
def small (arr data : List Byte) (w i : Word) : State :=
  { State.reset with
    baBase := 0x100, baLen := BitVec.ofNat 64 arr.length
    dataBase := 0x200, dataLen := BitVec.ofNat 64 data.length
    wsize := w, bitIdx := i
    mem := bytesAt 0x100 arr (bytesAt 0x200 data []) }

/-- The array of such a machine after a step. -/
def arrayOf (s : State) : List Byte := s.mem.bytes s.baBase.toNat s.baLen.toNat

/-- The engine with the legacy bound (R8). -/
def legacy : Params := { aw := 32, legacyBound := true, legal := by decide }

def foobar : List Byte := [0x66, 0x6F, 0x6F, 0x62, 0x61, 0x72]

def abcd : List Byte := [0x61, 0x62, 0x63, 0x64]

/-! ## Well-formedness: one ill-formed term for each check, refused (R90, R91, R95) -/

theorem test_wf_accepts : (CmdFields.mk 0 0 1 2).wf = true := by decide

theorem test_wf_refuses_high_bits : (CmdFields.mk 1 0 0 1).wf = false := by decide

theorem test_wf_refuses_bits_7_4 : (CmdFields.mk 0 8 0 1).wf = false := by decide

theorem test_wf_refuses_op_0_and_5 :
    (CmdFields.mk 0 0 0 0).wf = false ∧ (CmdFields.mk 0 0 0 5).wf = false := by decide

theorem test_wf_refuses_width_on_the_view :
    (CmdFields.mk 0 0 1 3).wf = false ∧ (CmdFields.mk 0 0 1 4).wf = false := by decide

/-! ## Decoding: words written out from the fields of R90 (ZERO56, ZERO4, W, OP) -/

theorem test_decode_hash32 : decode (0#56 ++ 0b0000#4 ++ 0b0#1 ++ 0b001#3) = .command .hash32 := by decide

theorem test_decode_hash64 : decode (0#56 ++ 0b0000#4 ++ 0b1#1 ++ 0b001#3) = .command .hash64 := by decide

theorem test_decode_insert32 : decode (0#56 ++ 0b0000#4 ++ 0b0#1 ++ 0b010#3) = .command .insert32 := by decide

theorem test_decode_insert64 : decode (0#56 ++ 0b0000#4 ++ 0b1#1 ++ 0b010#3) = .command .insert64 := by decide

theorem test_decode_setbit : decode (0#56 ++ 0b0000#4 ++ 0b0#1 ++ 0b011#3) = .command .setbit := by decide

theorem test_decode_testbit : decode (0#56 ++ 0b0000#4 ++ 0b0#1 ++ 0b100#3) = .command .testbit := by decide

theorem test_decode_reserved :
    decode 0x00 = .illegal ∧ decode 0x05 = .illegal ∧ decode 0x08 = .illegal ∧ decode 0x0B = .illegal ∧
      decode 0x0C = .illegal ∧ decode 0x10 = .illegal ∧ decode 0x101 = .illegal ∧
      decode 0x8000000000000001 = .illegal := by decide

/-- The rows of spec/opcode_table.json, 8 bits each. -/
theorem test_decode_table_words :
    decodeTableWord 8 0x01 = some .hash32 ∧ decodeTableWord 8 0x09 = some .hash64 ∧
      decodeTableWord 8 0x02 = some .insert32 ∧ decodeTableWord 8 0x0A = some .insert64 ∧
      decodeTableWord 8 0x03 = some .setbit ∧ decodeTableWord 8 0x04 = some .testbit ∧
      decodeTableWord 8 0x0C = none := by decide

/-- HASH32 as the first instruction after reset: DIGEST is the offset basis (V1). -/
theorem test_first_command_hash32 :
    (nextOf (step (State.reset.withFetchWord 8 0x01))).digest = 0x811C9DC5 := by decide

/-- INSERT64 as the first instruction after reset: BA_LEN and WSIZE are 0 (R38). -/
theorem test_first_command_insert64 :
    (nextOf (step (State.reset.withFetchWord 64 0x0A))).err = .invalidArgument := by decide

/-! ## Vectors -/

/-- V12, 32-bit column. -/
theorem test_hash32_abcd : (nextOf (exec .hash32 (small [] abcd 0 0))).digest = 0xCE3479BD := by decide

/-- V9, 32-bit column: the byte is zero-extended. -/
theorem test_hash32_ff : (nextOf (exec .hash32 (small [] [0xFF] 0 0))).digest = 0x7A0B824E := by decide

/-- V6, 64-bit column. -/
theorem test_hash64_foobar :
    (nextOf (exec .hash64 (small [] foobar 0 0))).digest = 0x85944171F73967E8 := by decide

/-- V7, 64-bit column: a zero byte is hashed. -/
theorem test_hash64_zero_byte :
    (nextOf (exec .hash64 (small [] [0] 0 0))).digest = 0xAF63BD4C8601B7DF := by decide

/-- V19 and V16: the other bits of the byte are kept; the last legal index. -/
theorem test_setbit :
    arrayOf (nextOf (exec .setbit (small [0x5A, 0, 0, 0] [] 0 0))) = [0x5B, 0, 0, 0] ∧
      arrayOf (nextOf (exec .setbit (small [0, 0, 0, 0] [] 0 31))) = [0, 0, 0, 0x80] := by decide

/-- V17 and V21: the first illegal index, and the largest. -/
theorem test_setbit_out_of_range :
    (nextOf (exec .setbit (small [0, 0, 0, 0] [] 0 32))).err = .outOfRange ∧
      (nextOf (exec .setbit (small [0, 0, 0, 0] [] 0 0xFFFFFFFFFFFFFFFF))).err = .outOfRange := by decide

/-- V22 and V23. -/
theorem test_testbit :
    (nextOf (exec .testbit (small [0x02, 0x20, 0, 0x22] [] 0 13))).tbit = true ∧
      (nextOf (exec .testbit (small [0x02, 0x20, 0, 0x22] [] 0 12))).tbit = false := by decide

/-- V24: OutOfRange leaves TBIT as it was. -/
theorem test_testbit_out_of_range :
    (nextOf (exec .testbit { small [0x02, 0x20, 0, 0x22] [] 0 32 with tbit := true })).status = 6 := by decide

/-- V35: a capacity that is no power of two. -/
theorem test_insert32_foobar :
    arrayOf (nextOf (exec .insert32 (small [0, 0, 0, 0, 0] foobar 3 0))) = [0x04, 0, 0x80, 0x88, 0] := by decide

/-- V28, V43: one window that fills the data; the error wins over the no-op. -/
theorem test_insert32_edges :
    arrayOf (nextOf (exec .insert32 (small [0, 0, 0] abcd 4 0))) = [0, 0x20, 0] ∧
      (nextOf (exec .insert32 (small [] [0x61, 0x62, 0x63] 4 0))).err = .invalidArgument := by decide

/-- V36: the widths differ. -/
theorem test_insert64_foobar :
    arrayOf (nextOf (exec .insert64 (small [0, 0, 0, 0, 0] foobar 3 0))) = [0x80, 0, 0, 0x8C, 0] := by decide

/-- V38 over an array with earlier bits: windows that share a bit, and earlier bits kept (R163). -/
theorem test_insert64_abcdabcd :
    arrayOf (nextOf (exec .insert64 (small [0x80, 0, 0] (abcd ++ abcd) 4 0))) = [0xA2, 0, 0x02] := by decide

/-- V31 and V32: the legacy bound skips the last window. -/
theorem test_insert_legacy_bound :
    arrayOf (nextOf (runCommand legacy .insert32 (small [0, 0, 0] abcd 4 0))) = [0, 0, 0] ∧
      arrayOf (nextOf (runCommand legacy .insert32 (small [0, 0, 0, 0, 0] foobar 3 0))) =
        [0, 0, 0x80, 0x88, 0] := by decide

/-- V45: a capacity above 2^32. -/
theorem test_insert32_large_array :
    (nextOf (exec .insert32 { small [] [0x61] 1 0 with baBase := 0x1000, baLen := 0x40000000 })).mem.read
      (0x1000 + 0x1C818525) = 0x10 := by decide

/-- The access sequence of V40's INSERT32 (R154): read the window, then read and write the byte; newest first. -/
theorem test_insert32_accesses :
    (nextOf (exec .insert32 (small [0] [0x61, 0x62] 1 0))).bus =
      [.write 0x100 0x30, .read 0x100, .read 0x201, .write 0x100 0x10, .read 0x100, .read 0x200] := by decide

/-- R203: an illegal word sets ERR = 3 and leaves TBIT. -/
theorem test_illegal_word :
    (nextOf (step { State.reset with tbit := true, pending := [.regWrite 8 0x0B] })).status = 7 := by decide

/-- R28: an AW-bit register keeps the low 32 bits. -/
theorem test_register_truncates :
    (nextOf (step { State.reset with pending := [.regWrite 1 0x100000003] })).baLen = 3 := by decide

/-- P3's shape: hash, host reduction, TESTBIT, with V28's array and window. -/
theorem test_query_call :
    (nextOf (Sys2Proof.core.run 9
      { small [0, 0x20, 0] abcd 0 0 with
        pending := callQuery .w32 0x100 3 0x200 4 0xCE3479BD })).observed =
      [.reg 7 4, .reg 6 0xCE3479BD] := by decide

/-- R191: testBit reads STATUS twice (V22's array and index). -/
theorem test_testbit_call :
    (nextOf (Sys2Proof.core.run 6
      { small [0x02, 0x20, 0, 0x22] [] 0 0 with pending := callTestBit 0x100 4 13 })).observed =
      [.reg 7 4, .reg 7 4] := by decide

/-- R71: an INSERT whose spans overlap is refused even when its data is shorter than a window. -/
theorem test_insert_short_overlap :
    refusalOf (exec .insert32 { small [0, 0, 0] abcd 5 0 with dataBase := 0x102 }) = some .spansOverlap := by decide

/-- R239: another agent's write into the bit array during a command is refused, one beside it lands. -/
theorem test_foreign_write :
    refusalOf (step { small [0, 0, 0] abcd 4 0 with pending := [.issueWithForeignWrite 2 0x102 1] }) =
        some .foreignWriteDuringCommand ∧
      (nextOf (step { small [0, 0, 0] abcd 4 0 with pending := [.issueWithForeignWrite 2 0x103 1] })).mem.read
        0x103 = 1 := by decide

/-! ## The hypotheses of the statements can be met -/

/-- A machine with a 3-byte array, the data "foobar" and windows of 3 bytes. -/
def inserting : State := small [0, 0, 0] foobar 3 13

/-- The same with operands at the edge of the address space: the data span ends at 2^32, the array is next below. -/
def atTheTop : State :=
  { State.reset with
    baBase := 0xFFFFFFF8, baLen := 4, dataBase := 0xFFFFFFFC, dataLen := 4, wsize := 4, bitIdx := 31 }

theorem dataSpanOk_of_plain {s : State} (h : s.platform = [])
    (e : s.dataBase.toNat + s.dataLen.toNat ≤ 2 ^ Config.params.aw) : DataSpanOk s :=
  fun _ => ⟨e, fun _ _ => by rw [h]; rfl⟩

theorem bitArrayOk_of_plain {s : State} (h : s.platform = [])
    (e : s.baBase.toNat + s.baLen.toNat ≤ 2 ^ Config.params.aw) : BitArrayOk s :=
  fun _ => ⟨e, fun _ _ => by rw [h]; rfl⟩

theorem insertOk_of_plain {s : State} (h : s.platform = [])
    (d : s.dataBase.toNat + s.dataLen.toNat ≤ 2 ^ Config.params.aw)
    (b : s.baBase.toNat + s.baLen.toNat ≤ 2 ^ Config.params.aw)
    (o : s.baBase.toNat + s.baLen.toNat ≤ s.dataBase.toNat) : InsertOk s :=
  ⟨dataSpanOk_of_plain h d, bitArrayOk_of_plain h b, fun _ hd hb => by omega⟩

theorem test_meets_ReservedWordOnlyReportsIllegalCommand :
    16 ≤ (0x10 : Word).toNat ∧ (0x0F : Word) ∈ ([0x00, 0x08, 0x05, 0x06, 0x07, 0x0D, 0x0E, 0x0F, 0x0B, 0x0C] : List Word) ∧
      ({ inserting with pending := [.regWrite 8 0] } : State).pending = .regWrite 8 0 :: [] ∧
      (0 : Word) ≠ 0x01 ∧ (0 : Word) ≠ 0x09 ∧ (0 : Word) ≠ 0x02 ∧ (0 : Word) ≠ 0x0A ∧ (0 : Word) ≠ 0x03 ∧
      (0 : Word) ≠ 0x04 := by decide

theorem test_meets_StepRunsTheIssuedCommand :
    ({ inserting with pending := [.regWrite 8 0x0A] } : State).pending = .regWrite 8 0x0A :: [] ∧
      decode 0x0A = .command .insert64 ∧ Instr.insert64.wf = true := by decide

theorem test_meets_IdleMachineStaysAsItIs : inserting.pending = [] := by decide

theorem test_meets_RegisterReadAnswersAndChangesNothing :
    let s := { inserting with tbit := true, err := .outOfRange }
    ((0, 0x100) : Nat × Word) ∈ [(0, s.baBase), (1, s.baLen), (2, s.dataBase), (3, s.dataLen), (4, s.wsize),
      (5, s.bitIdx), (6, s.digest), (7, BitVec.ofNat 64 (4 * s.tbit.toNat + s.err.code.toNat)), (8, 0)] ∧
    ((7, 6) : Nat × Word) ∈ [(0, s.baBase), (1, s.baLen), (2, s.dataBase), (3, s.dataLen), (4, s.wsize),
      (5, s.bitIdx), (6, s.digest), (7, BitVec.ofNat 64 (4 * s.tbit.toNat + s.err.code.toNat)), (8, 0)] ∧
    ((8, 0) : Nat × Word) ∈ [(0, s.baBase), (1, s.baLen), (2, s.dataBase), (3, s.dataLen), (4, s.wsize),
      (5, s.bitIdx), (6, s.digest), (7, BitVec.ofNat 64 (4 * s.tbit.toNat + s.err.code.toNat)), (8, 0)] := by decide

theorem test_meets_OperandRegisterReadsBackTruncated : 0 ≤ 5 ∧ 5 ≤ 5 := by decide

theorem test_meets_UnassignedRegisterIsRefused : 9 ≤ 9 := by decide

theorem test_meets_HostReadsTheByteLastWritten :
    0x100 < 2 ^ Config.params.aw ∧ 0xFFFFFFFF < 2 ^ Config.params.aw ∧
      kindAt inserting.platform 0x100 = .plain ∧ kindAt inserting.platform 0xFFFFFFFF = .plain := by decide

theorem test_meets_HostAccessOutsideMemoryFaults :
    2 ^ Config.params.aw ≤ 0x100000000 ∧
      kindAt ({ inserting with platform := [⟨0, 16, .absent⟩] } : State).platform 15 = .absent ∧
      15 < 2 ^ Config.params.aw ∧
      kindAt ({ inserting with platform := [⟨15, 1, .device⟩] } : State).platform 15 = .device := by decide

theorem test_meets_DigestOfWidth32FitsInItsLowHalf : ∃ t, exec .hash32 inserting = .next t := ⟨_, rfl⟩

theorem test_meets_ChangingOneByteChangesTheDigest :
    (0xFFFFFFFF : Word).toNat < 2 ^ Width.w32.bits ∧ (0xFFFFFFFFFFFFFFFF : Word).toNat < 2 ^ Width.w64.bits ∧
      fnvStep .w32 0xFFFFFFFF 0 = fnvStep .w32 0xFFFFFFFF 0 ∧ (0 : Byte) ≠ 0xFF := by decide

theorem test_meets_SmallArrayCannotTellTheWidths :
    (small [0] foobar 3 0).baLen = 1 ∧ (small [0, 0] foobar 3 0).baLen = 2 ∧ (small [0, 0, 0, 0] foobar 3 0).baLen = 4 := by
  decide

theorem test_meets_HashCommandsWriteTheDigestAndNothingElse : DataSpanOk atTheTop ∧ DataSpanOk inserting :=
  ⟨dataSpanOk_of_plain rfl (by decide), dataSpanOk_of_plain rfl (by decide)⟩

theorem test_meets_HashOfTheEmptySpanIsTheBasis :
    ({ atTheTop with dataBase := 0xFFFFFFFF, dataLen := 0 } : State).dataLen = 0 := by decide

/-- Two states that hold "foobar" at different addresses. -/
theorem test_meets_DigestDependsOnTheBytesAlone :
    let s' := { inserting with dataBase := 0x300, mem := bytesAt 0x300 foobar [], digest := 5, wsize := 0 }
    (∃ t, exec (hashOf .w32) inserting = .next t) ∧ (∃ t, exec (hashOf .w32) s' = .next t) ∧
      inserting.mem.bytes inserting.dataBase.toNat inserting.dataLen.toNat =
        s'.mem.bytes s'.dataBase.toNat s'.dataLen.toNat :=
  ⟨⟨_, rfl⟩, ⟨_, rfl⟩, rfl⟩

theorem test_meets_BitIndexDecodesToByteAndPosition :
    23 < 8 * 3 ∧ 0xFFFFFFFD + 3 ≤ 2 ^ Config.params.aw := by decide

/-- The last index in range, and the first out of range. -/
theorem test_meets_SetbitSetsOneBitOrReportsOutOfRange :
    atTheTop.bitIdx.toNat < 8 * atTheTop.baLen.toNat ∧ BitArrayOk atTheTop ∧
      8 * atTheTop.baLen.toNat ≤ ({ atTheTop with bitIdx := 32 } : State).bitIdx.toNat :=
  ⟨by decide, bitArrayOk_of_plain rfl (by decide), by decide⟩

theorem test_meets_TestbitReadsOneBitOrReportsOutOfRange :
    ({ inserting with bitIdx := 23 } : State).bitIdx.toNat < 8 * inserting.baLen.toNat ∧
      BitArrayOk { inserting with bitIdx := 23 } ∧
      8 * inserting.baLen.toNat ≤ ({ inserting with bitIdx := 24 } : State).bitIdx.toNat :=
  ⟨by decide, bitArrayOk_of_plain rfl (by decide), by decide⟩

/-- The largest values the AW-bit registers hold. -/
theorem test_meets_RangeCheckOnTheByteOffsetIsTheSame :
    ({ State.reset with baLen := 0xFFFFFFFF, bitIdx := 0xFFFFFFFFFFFFFFFF, mem := [(0xFFFFFFFF, 1)] } : State).Inv where
  memWf := by decide
  memInSpace := by decide
  baBase := by decide
  baLen := by decide
  dataBase := by decide
  dataLen := by decide
  wsize := by decide
  off := by decide
  idx := by decide

theorem test_meets_ZeroCapacityIsOutOfRangeForTheView : (small [] foobar 3 0).baLen = 0 := by decide

theorem test_meets_SetAndTestObeyTheirLaws :
    BitArrayOk inserting ∧ (0 : Word).toNat < 8 * inserting.baLen.toNat ∧
      (23 : Word).toNat < 8 * inserting.baLen.toNat ∧ (23 : Word) ≠ 0 :=
  ⟨bitArrayOk_of_plain rfl (by decide), by decide, by decide, by decide⟩

theorem test_meets_RunOfSetbitsIsAUnion :
    let s : State :=
      { inserting with pending := [.regWrite 5 0, .regWrite 8 3, .regWrite 5 23, .regWrite 8 3, .regRead 7] }
    BitArrayOk s ∧ (∀ i ∈ ([0, 23] : List Word), i.toNat < 8 * s.baLen.toNat) ∧
      s.pending = ([0, 23] : List Word).flatMap (fun i => [.regWrite 5 i, .regWrite 8 0x03]) ++
        [.regRead 7] :=
  ⟨bitArrayOk_of_plain rfl (by decide), by simp [inserting, small], rfl⟩

theorem test_meets_WindowOffsetsAreAllLegalOnes :
    Params.Legal 1 ∧ Params.Legal 61 ∧ 0 < 4 ∧ 3 < 4 ∧ 4 ≤ 4 := by decide

theorem test_meets_ReductionIsTheRemainderByTheCapacity :
    0 < 4 ∧ (31 : Word).toNat < 8 * 4 ∧ 8 * 4 = 2 ^ 5 := by decide

theorem test_meets_InsertChecksItsPreconditionsFirst :
    (small [0] foobar 0 0).wsize = 0 ∧ (small [] foobar 3 0).baLen = 0 := by decide

theorem test_meets_ShortInputInsertIsANoOp :
    inserting.baLen ≠ 0 ∧ ({ inserting with wsize := 7 } : State).wsize ≠ 0 ∧
      inserting.dataLen.toNat < ({ inserting with wsize := 7 } : State).wsize.toNat ∧
      SpansDisjoint { inserting with wsize := 7 } :=
  ⟨by decide, by decide, by decide, (insertOk_of_plain rfl (by decide) (by decide) (by decide)).2.2⟩

theorem test_meets_InsertUnitesTheWindowBits :
    inserting.wsize ≠ 0 ∧ inserting.baLen ≠ 0 ∧ InsertOk inserting :=
  ⟨by decide, by decide, insertOk_of_plain rfl (by decide) (by decide) (by decide)⟩

/-- One window that fills a data span ending at 2^32. -/
theorem test_meets_InsertAccessCounts :
    atTheTop.wsize ≠ 0 ∧ atTheTop.baLen ≠ 0 ∧ InsertOk atTheTop ∧
      atTheTop.wsize.toNat ≤ atTheTop.dataLen.toNat :=
  ⟨by decide, by decide, insertOk_of_plain rfl (by decide) (by decide) (by decide), by decide⟩

theorem test_meets_InsertTwiceIsInsertOnce :
    inserting.wsize ≠ 0 ∧ inserting.baLen ≠ 0 ∧ InsertOk inserting ∧ inserting.mem.wf = true :=
  ⟨by decide, by decide, insertOk_of_plain rfl (by decide) (by decide) (by decide), by decide⟩

theorem test_meets_InsertsIntoOneArrayCommute :
    inserting.wsize ≠ 0 ∧ (2 : Word) ≠ 0 ∧ inserting.baLen ≠ 0 ∧ InsertOk inserting ∧
      InsertOk { inserting with dataBase := 0x202, dataLen := 3, wsize := 2 } :=
  ⟨by decide, by decide, by decide, insertOk_of_plain rfl (by decide) (by decide) (by decide),
    insertOk_of_plain rfl (by decide) (by decide) (by decide)⟩

/-- The last window. -/
theorem test_meets_InsertLeavesNoFalseNegatives :
    ∃ t, exec (insertOf .w64) inserting = .next t ∧ t.err = .none ∧
      3 + inserting.wsize.toNat ≤ inserting.dataLen.toNat :=
  ⟨_, rfl, by decide, by decide⟩

theorem test_meets_ErrorsHaveExactlyTheirCauses :
    (∃ t, exec .insert32 (small [0] foobar 0 0) = .next t) ∧ (∃ t, exec .testbit (small [0] foobar 0 8) = .next t) ∧
      (∃ t, exec .hash64 inserting = .next t) ∧ ∃ t, issue Config.params 0x0C inserting = .next t :=
  ⟨⟨_, rfl⟩, ⟨_, rfl⟩, ⟨_, rfl⟩, ⟨_, rfl⟩⟩

theorem test_meets_FailedCommandOnlySetsErr :
    (∃ t, exec .insert64 (small [] foobar 3 0) = .next t ∧ t.err ≠ .none) ∧
      ∃ t, exec .setbit (small [0] foobar 3 8) = .next t ∧ t.err ≠ .none :=
  ⟨⟨_, rfl, by decide⟩, ⟨_, rfl, by decide⟩⟩

theorem test_meets_CommandsWriteOnlyTheirResults :
    (∃ t, exec .setbit inserting = .next t) ∧ Instr.setbit ≠ .hash32 ∧ Instr.setbit ≠ .hash64 ∧
      Instr.setbit ≠ .testbit ∧ (∃ t, exec .testbit inserting = .next t) ∧ Instr.testbit ≠ .insert32 ∧
      Instr.testbit ≠ .insert64 ∧ Instr.testbit ≠ .setbit :=
  ⟨⟨_, rfl⟩, by decide, by decide, by decide, ⟨_, rfl⟩, by decide, by decide, by decide⟩

/-- An array with a bit that is 1, and the addresses next to it. -/
theorem test_meets_CommandsOnlySetBitsOfTheArray :
    let s := small [0x80, 0, 0] foobar 3 13
    (∃ t, exec .insert32 s = .next t) ∧ (s.mem.read 0x100).getLsbD 7 = true ∧ ¬InBitArray s 0xFF ∧
      ¬InBitArray s 0x103 :=
  ⟨⟨_, rfl⟩, by decide, by decide, by decide⟩

theorem test_meets_AccessesStayInsideTheSpans : ∃ t, exec .insert32 inserting = .next t ∧ t.bus ≠ [] :=
  ⟨_, rfl, by decide⟩

/-- Clauses (1) and (3): spans that reach one byte past 2^32. -/
theorem test_meets_BrokenPremisesAreRefusedByName_wraps :
    let s := { atTheTop with dataBase := 0xFFFFFFFD, baBase := 0xFFFFFFFD }
    s.dataLen ≠ 0 ∧ 2 ^ 32 < s.dataBase.toNat + s.dataLen.toNat ∧ s.bitIdx.toNat < 8 * s.baLen.toNat ∧
      2 ^ 32 < s.baBase.toNat + s.baLen.toNat := by decide

/-- Clauses (2) and (4): the last byte of a span is a device. -/
theorem test_meets_BrokenPremisesAreRefusedByName_notPlain :
    let s := { atTheTop with platform := [⟨0xFFFFFFFF, 1, .device⟩, ⟨0xFFFFFFFB, 1, .absent⟩] }
    s.dataBase.toNat + s.dataLen.toNat ≤ 2 ^ 32 ∧ InDataSpan s 0xFFFFFFFF ∧ kindAt s.platform 0xFFFFFFFF ≠ .plain ∧
      s.bitIdx.toNat < 8 * s.baLen.toNat ∧ s.baBase.toNat + s.baLen.toNat ≤ 2 ^ 32 ∧ InBitArray s 0xFFFFFFFB ∧
      kindAt s.platform 0xFFFFFFFB ≠ .plain := by decide

/-- Clause (5): an INSERT whose data span wraps, whose array wraps, and whose spans share one byte. -/
theorem test_meets_BrokenPremisesAreRefusedByName_insert :
    let w := { atTheTop with dataBase := 0xFFFFFFFD }
    let x := { atTheTop with dataBase := 0x100, baBase := 0xFFFFFFFD }
    let y := { atTheTop with baBase := 0xFFFFFFF9 }
    (w.wsize ≠ 0 ∧ w.baLen ≠ 0 ∧ w.wsize.toNat ≤ w.dataLen.toNat ∧ 2 ^ 32 < w.dataBase.toNat + w.dataLen.toNat) ∧
      (x.wsize ≠ 0 ∧ x.baLen ≠ 0 ∧ x.wsize.toNat ≤ x.dataLen.toNat ∧ DataSpanOk x ∧
        2 ^ 32 < x.baBase.toNat + x.baLen.toNat) ∧
      y.wsize ≠ 0 ∧ y.baLen ≠ 0 ∧ y.wsize.toNat ≤ y.dataLen.toNat ∧ DataSpanOk y ∧ BitArrayOk y ∧
        InDataSpan y 0xFFFFFFFC ∧ InBitArray y 0xFFFFFFFC :=
  ⟨by decide, ⟨by decide, by decide, by decide, dataSpanOk_of_plain rfl (by decide), by decide⟩, by decide, by decide,
    by decide, dataSpanOk_of_plain rfl (by decide), bitArrayOk_of_plain rfl (by decide), by decide, by decide⟩

/-- Clause (5): an INSERT with a device at the last byte of its data span, or of its array. -/
theorem test_meets_BrokenPremisesAreRefusedByName_insert_notPlain :
    let w := { atTheTop with platform := [⟨0xFFFFFFFF, 1, .device⟩] }
    let x := { atTheTop with platform := [⟨0xFFFFFFFB, 1, .device⟩] }
    (w.wsize ≠ 0 ∧ w.baLen ≠ 0 ∧ w.wsize.toNat ≤ w.dataLen.toNat ∧ w.dataBase.toNat + w.dataLen.toNat ≤ 2 ^ 32 ∧
        InDataSpan w 0xFFFFFFFF ∧ kindAt w.platform 0xFFFFFFFF ≠ .plain) ∧
      x.wsize ≠ 0 ∧ x.baLen ≠ 0 ∧ x.wsize.toNat ≤ x.dataLen.toNat ∧ DataSpanOk x ∧
        x.baBase.toNat + x.baLen.toNat ≤ 2 ^ 32 ∧ InBitArray x 0xFFFFFFFB ∧
        kindAt x.platform 0xFFFFFFFB ≠ .plain := by
  refine ⟨by decide, by decide, by decide, by decide, fun _ => ⟨by decide, fun a h => ?_⟩, by decide, by decide,
    by decide⟩
  have h1 : 0xFFFFFFFC ≤ a := h.1
  exact kindAt_cons_free (by simp only; omega)

/-- Clause (6): spans that share one byte, and data shorter than a window. -/
theorem test_meets_BrokenPremisesAreRefusedByName_short :
    let s := { atTheTop with baBase := 0xFFFFFFF9, wsize := 5 }
    s.wsize ≠ 0 ∧ s.baLen ≠ 0 ∧ s.dataLen.toNat < s.wsize.toNat ∧ InDataSpan s 0xFFFFFFFC ∧
      InBitArray s 0xFFFFFFFC := by decide

/-- A memory that differs next to both spans. -/
theorem test_meets_CommandsDependOnTheSpansAlone :
    (∃ t, exec .insert32 inserting = .next t) ∧
      (∀ a, InDataSpan inserting a ∨ InBitArray inserting a →
        (inserting.mem.write 0x103 7).read a = inserting.mem.read a) ∧
      inserting.mem.write 0x103 7 ≠ inserting.mem := by
  refine ⟨⟨_, rfl⟩, fun a h => Memory.read_write_other ?_, by decide⟩
  rintro rfl
  revert h
  decide

theorem test_meets_StepKeepsTheInvariant :
    ({ inserting with pending := [.regWrite 8 2] } : State).Inv ∧
      (∃ t, step { inserting with pending := [.regWrite 8 2] } = .next t) ∧
      ({ inserting with pending := [.regWrite 8 2] } : State).InvAt legacy ∧
      ∃ t, stepAt legacy { inserting with pending := [.regWrite 8 2] } = .next t :=
  have h : ({ inserting with pending := [.regWrite 8 2] } : State).Inv :=
    ⟨by decide, by decide, by decide, by decide, by decide, by decide, by decide, by decide, by decide⟩
  ⟨h, ⟨_, rfl⟩, { h with }, ⟨_, rfl⟩⟩

/-- The engine with the smallest memory, two bytes. -/
theorem test_meets_EveryWidthHasItsOwnRegistersAndMemory :
    let p : Params := { aw := 1, legacyBound := true, legal := by decide }
    let s := { State.reset with dataBase := 1, dataLen := 1, baLen := 1 }
    s.InvAt p ∧ 1 < 2 ^ p.aw ∧ kindAt s.platform 1 = .plain ∧ 2 ^ p.aw ≤ 2 ∧ DataSpanOkAt p s ∧
      ({ s with dataLen := 2 } : State).dataLen ≠ 0 ∧
      2 ^ p.aw < s.dataBase.toNat + ({ s with dataLen := 2 } : State).dataLen.toNat :=
  ⟨⟨by decide, by decide, by decide, by decide, by decide, by decide, by decide, by decide, by decide⟩, by decide,
    by decide, by decide, fun _ => ⟨by decide, fun _ _ => rfl⟩, by decide, by decide⟩

/-- The legacy bound, with three windows besides the last, and with the last alone. -/
theorem test_meets_InsertWithEitherBoundInsertsItsWindows :
    legacy.legacyBound = true ∧ Config.params.legacyBound = false ∧
      inserting.wsize ≠ 0 ∧ inserting.baLen ≠ 0 ∧ InsertOkAt legacy inserting ∧
      2 + inserting.wsize.toNat < inserting.dataLen.toNat ∧ 3 + inserting.wsize.toNat ≤ inserting.dataLen.toNat ∧
      atTheTop.wsize ≠ 0 ∧ atTheTop.baLen ≠ 0 ∧ InsertOkAt legacy atTheTop ∧
      atTheTop.dataLen.toNat ≤ atTheTop.wsize.toNat :=
  have h : InsertOk inserting := insertOk_of_plain rfl (by decide) (by decide) (by decide)
  have h' : InsertOk atTheTop := insertOk_of_plain rfl (by decide) (by decide) (by decide)
  ⟨by decide, by decide, by decide, by decide, h, by decide, by decide, by decide, by decide, h', by decide⟩

/-- The last byte of the data span, and the byte after it. -/
theorem test_meets_ForeignWriteDuringACommand :
    0x205 < 2 ^ Config.params.aw ∧ kindAt inserting.platform 0x205 = .plain ∧ InDataSpan inserting 0x205 ∧
      0x206 < 2 ^ Config.params.aw ∧ kindAt inserting.platform 0x206 = .plain ∧ ¬InDataSpan inserting 0x206 ∧
      ¬InBitArray inserting 0x206 ∧ ∃ t, issue Config.params 2 { inserting with pending := [.regRead 7] } = .next t :=
  ⟨by decide, by decide, by decide, by decide, by decide, by decide, by decide, ⟨_, rfl⟩⟩

theorem test_meets_ForeignReadSeesAByteOnTheWay :
    0x101 < 2 ^ Config.params.aw ∧ kindAt inserting.platform 0x101 = .plain ∧
      ∃ t, issue Config.params 2 { inserting with pending := [.regRead 7] } = .next t :=
  ⟨by decide, by decide, ⟨_, rfl⟩⟩

theorem test_meets_HashCallAnswersTheDigest :
    let s := { inserting with pending := callHash .w32 0x200 6 ++ [HostOp.regRead 7] }
    (0x200 : Word).toNat < 2 ^ 32 ∧ (6 : Word).toNat < 2 ^ 32 ∧
      DataSpanOk { s with dataBase := 0x200, dataLen := 6 } ∧ s.pending = callHash .w32 0x200 6 ++ [HostOp.regRead 7] :=
  ⟨by decide, by decide, dataSpanOk_of_plain rfl (by decide), rfl⟩

theorem test_meets_InsertCallInsertsAndAnswersNoError :
    let s := { inserting with pending := callInsert .w64 0x100 3 0x200 6 2 ++ [] }
    (0x100 : Word).toNat < 2 ^ 32 ∧ (3 : Word).toNat < 2 ^ 32 ∧ (0x200 : Word).toNat < 2 ^ 32 ∧
      (6 : Word).toNat < 2 ^ 32 ∧ (2 : Word).toNat < 2 ^ 32 ∧ (2 : Word) ≠ 0 ∧ (3 : Word) ≠ 0 ∧
      InsertOk { s with baBase := 0x100, baLen := 3, dataBase := 0x200, dataLen := 6, wsize := 2 } ∧
      s.pending = callInsert .w64 0x100 3 0x200 6 2 ++ [] :=
  ⟨by decide, by decide, by decide, by decide, by decide, by decide, by decide,
    insertOk_of_plain rfl (by decide) (by decide) (by decide), rfl⟩

theorem test_meets_BitCallsSetAndAnswerTheBit :
    (0xFFFFFFFC : Word).toNat < 2 ^ 32 ∧ (4 : Word).toNat < 2 ^ 32 ∧ (31 : Word).toNat < 8 * (4 : Word).toNat ∧
      BitArrayOk { State.reset with pending := callSetBit 0xFFFFFFFC 4 31, baBase := 0xFFFFFFFC, baLen := 4 } ∧
      ({ State.reset with pending := callSetBit 0xFFFFFFFC 4 31 } : State).pending = callSetBit 0xFFFFFFFC 4 31 ++ [] ∧
      ({ State.reset with pending := callTestBit 0xFFFFFFFC 4 31 } : State).pending =
        callTestBit 0xFFFFFFFC 4 31 ++ [] :=
  ⟨by decide, by decide, by decide, bitArrayOk_of_plain rfl (by decide), rfl, rfl⟩

/-- The last window of the data, queried where it stands. -/
theorem test_meets_QueryFindsEveryInsertedWindow :
    inserting.Inv ∧ ∃ t, exec (insertOf .w32) inserting = .next t ∧ t.err = .none ∧
      3 + inserting.wsize.toNat ≤ inserting.dataLen.toNat ∧ (0x203 : Word).toNat < 2 ^ 32 ∧
      DataSpanOk { t with dataBase := 0x203, dataLen := inserting.wsize } ∧
      t.mem.bytes (0x203 : Word).toNat inserting.wsize.toNat = windowAt inserting 3 :=
  ⟨⟨by decide, by decide, by decide, by decide, by decide, by decide, by decide, by decide, by decide⟩,
    ⟨_, rfl, by decide, by decide, by decide, dataSpanOk_of_plain rfl (by decide), by decide⟩⟩

end Sys2Proof.Tests
end

section
/-! PROOFS. Every step keeps the invariant (spec/00_scope.md R7, spec/10_state.md R28, R31, spec/20_memory.md R60):
each command first, then each thing the outside world does, then the step. -/

namespace Sys2Proof.Machine

/-- What an AW-bit register stores fits it (R28). -/
theorem truncate_lt (p : Params) (v : Word) : (truncate p v).toNat < 2 ^ p.aw := by
  have h : v.toNat % 2 ^ p.aw < 2 ^ p.aw := Nat.mod_lt _ (Nat.two_pow_pos _)
  exact lt_of_le_of_lt (by simpa [truncate] using Nat.mod_le _ _) h

/-- The byte of an index in range lies inside the memory where its array does (R70, R131). -/
theorem addrOf_lt {base len i n : Nat} (hi : i < 8 * len) (hn : base + len ≤ n) : addrOf base i < n := by
  have := byteOf_lt hi
  unfold addrOf
  omega

/-- The host's write of a byte that exists keeps the invariant (R60, R193). -/
theorem State.InvAt.hostWrite {p : Params} {s : State} (h : s.InvAt p) {a : Nat} (ha : a < 2 ^ p.aw) (b : Byte) :
    (hostWrite a b s).InvAt p :=
  { h with
    memWf := Memory.wf_write a b h.memWf
    memInSpace := fun c hc => (Memory.mem_write hc).elim (h.memInSpace c) fun e => e ▸ ha }

/-- The start of a command keeps the invariant (R31). -/
theorem State.InvAt.beginCommand {p : Params} {s : State} (h : s.InvAt p) : (beginCommand s).InvAt p :=
  { h with off := Nat.two_pow_pos _, idx := Nat.two_pow_pos _ }

/-! ## The commands -/

theorem hashSeq_keeps_invAt {p : Params} {N : Width} {s t : State} (h : s.InvAt p)
    (ht : hashSeq p N s = .next t) : t.InvAt p := by
  rw [hashSeq_eq, underPremise_next_iff] at ht
  obtain ⟨-, rfl⟩ := ht
  exact { h with off := Nat.two_pow_pos _, idx := h.dataLen }

/-- The array of a command that passes its range check is not empty, so R70 bounds it. -/
theorem BitArrayOkAt.end_le {p : Params} {s : State} (h : BitArrayOkAt p s) (hl : 0 < s.baLen.toNat) :
    s.baBase.toNat + s.baLen.toNat ≤ 2 ^ p.aw :=
  (h (word_toNat_ne_zero.1 hl.ne')).1

theorem setbitSeq_keeps_invAt {p : Params} {s t : State} (h : s.InvAt p) (ht : setbitSeq p s = .next t) :
    t.InvAt p := by
  rw [setbitSeq_eq] at ht
  split at ht
  · cases ht
    exact { h with }
  · rename_i hi
    rw [capacity, Nat.not_le] at hi
    obtain ⟨hr, rfl⟩ := underPremise_next_iff.1 ht
    have hend := (bitsRefusal_none_iff.1 hr).end_le (by omega)
    exact { (h.hostWrite (addrOf_lt hi hend) _).beginCommand with }

theorem testbitSeq_keeps_invAt {p : Params} {s t : State} (h : s.InvAt p) (ht : testbitSeq p s = .next t) :
    t.InvAt p := by
  rw [testbitSeq_eq] at ht
  split at ht
  · cases ht
    exact { h with }
  · obtain ⟨-, rfl⟩ := underPremise_next_iff.1 ht
    exact { h.beginCommand with }

/-- Without a window an INSERT only starts (R155). -/
theorem insertWindows_of_no_window {p : Params} {s : State} (N : Width)
    (h : windowCount p s.dataLen.toNat s.wsize.toNat = 0) : insertWindows p N s = beginCommand s := by
  rw [insertWindows, h, insertLoop]

/-- The windows of an INSERT whose bit array ends inside the memory keep the invariant: OFF ends at the number of
windows, and IDX at the window size (R31, R157). -/
theorem insertWindows_keeps_invAt {p : Params} {s : State} (N : Width) (h : s.InvAt p) (hw : 0 < s.wsize.toNat)
    (hl : 0 < s.baLen.toNat) (hend : s.baBase.toNat + s.baLen.toNat ≤ 2 ^ p.aw) :
    (insertWindows p N s).InvAt p := by
  have hcount := windowCount_le p (n := s.dataLen.toNat) hw
  have hdata := h.dataLen
  obtain ⟨hoff, hidx⟩ := insertLoop_counters N s.dataBase.toNat s.wsize.toNat s.baBase.toNat
    (capacity s.baLen.toNat) (windowCount p s.dataLen.toNat s.wsize.toNat) (beginCommand s) s.wsize.isLt
    (by rw [beginCommand_off]; have := s.dataLen.isLt; omega)
  rw [beginCommand_off, Nat.zero_add] at hoff
  rw [insertWindows_frame]
  exact { h with
    memWf := insertLoop_wf N _ _ _ _ _ _ s.wsize.isLt h.memWf
    memInSpace := fun c hc => (insertLoop_entries N _ _ _ _ _ _ s.wsize.isLt hl hc).elim (h.memInSpace c)
      fun hin => lt_of_lt_of_le hin.2 hend
    off := by
      rw [insertWindows, hoff]
      omega
    idx := by
      rw [insertWindows, hidx]
      split
      · exact Nat.two_pow_pos _
      · simpa using h.wsize }

theorem insertSeq_keeps_invAt {p : Params} {N : Width} {s t : State} (h : s.InvAt p)
    (ht : insertSeq p N s = .next t) : t.InvAt p := by
  rw [insertSeq_eq] at ht
  split at ht
  · cases ht
    exact { h with }
  · rename_i hargs
    obtain ⟨hw, hl⟩ := not_or.1 hargs
    obtain ⟨hr, rfl⟩ := underPremise_next_iff.1 ht
    split at hr
    · rename_i hcount
      rw [insertWindows_of_no_window N hcount]
      exact { h.beginCommand with }
    · have hl' := Nat.pos_of_ne_zero (word_toNat_ne_zero.2 hl)
      have hend := (insertRefusal_none_iff.1 hr).2.1.end_le hl'
      exact { insertWindows_keeps_invAt N h (Nat.pos_of_ne_zero (word_toNat_ne_zero.2 hw)) hl' hend with }

theorem runCommand_keeps_invAt {p : Params} {i : Instr} {s t : State} (h : s.InvAt p)
    (ht : runCommand p i s = .next t) : t.InvAt p := by
  cases i with
  | hash32 => exact hashSeq_keeps_invAt h ht
  | hash64 => exact hashSeq_keeps_invAt h ht
  | insert32 => exact insertSeq_keeps_invAt h ht
  | insert64 => exact insertSeq_keeps_invAt h ht
  | setbit => exact setbitSeq_keeps_invAt h ht
  | testbit => exact testbitSeq_keeps_invAt h ht

theorem issue_keeps_invAt {p : Params} {v : Word} {s t : State} (h : s.InvAt p) (ht : issue p v s = .next t) :
    t.InvAt p := by
  cases hd : decode v with
  | command i =>
    rw [issue, hd] at ht
    exact runCommand_keeps_invAt h ht
  | illegal =>
    rw [issue_of_illegal hd] at ht
    cases ht
    exact { h with }

/-! ## The port and the other agents -/

theorem regRead_next_iff {n : Nat} {s t : State} :
    regRead n s = .next t ↔ ∃ v, regValue s n = some v ∧ t = observe (.reg n v) s := by
  unfold regRead
  split <;> simp [*, eq_comm]

theorem regWrite_keeps_invAt {p : Params} {n : Nat} {v : Word} {s t : State} (h : s.InvAt p)
    (ht : regWrite p n v s = .next t) : t.InvAt p := by
  unfold regWrite at ht
  split at ht
  · cases ht; exact { h with baBase := truncate_lt p v }
  · cases ht; exact { h with baLen := truncate_lt p v }
  · cases ht; exact { h with dataBase := truncate_lt p v }
  · cases ht; exact { h with dataLen := truncate_lt p v }
  · cases ht; exact { h with wsize := truncate_lt p v }
  · cases ht; exact { h with }
  · cases ht; exact h
  · cases ht; exact h
  · exact issue_keeps_invAt h ht
  · cases ht

/-- An access of an agent outside the engine is made only where plain memory stands (R60, R68, R70). -/
theorem atPlainAddress_next_iff {p : Params} {a : Nat} {s u : State} {t : Host.Outcome State Fault Refusal} :
    atPlainAddress p a s t = .next u ↔ a < 2 ^ p.aw ∧ kindAt s.platform a = .plain ∧ t = .next u := by
  unfold atPlainAddress
  split
  · rename_i ha
    simp [Nat.not_lt.2 ha]
  · rename_i ha
    rw [Nat.not_le] at ha
    split <;> simp [*]

theorem mapNext_next_iff {f : State → State} {o : Host.Outcome State Fault Refusal} {u : State} :
    mapNext f o = .next u ↔ ∃ t, o = .next t ∧ f t = u := by
  cases o <;> simp [mapNext]

theorem perform_keeps_invAt {p : Params} {op : HostOp} {s t : State} (h : s.InvAt p)
    (ht : perform p op s = .next t) : t.InvAt p := by
  cases op with
  | regRead n =>
    obtain ⟨v, -, rfl⟩ := regRead_next_iff.1 ht
    exact { h with }
  | regWrite n v => exact regWrite_keeps_invAt h ht
  | memRead a =>
    obtain ⟨-, -, hu⟩ := atPlainAddress_next_iff.1 ht
    cases hu
    exact { h with }
  | memWrite a b =>
    obtain ⟨ha, -, hu⟩ := atPlainAddress_next_iff.1 ht
    cases hu
    exact h.hostWrite ha b
  | setRegion r =>
    cases ht
    exact { h with }
  | reset =>
    cases ht
    have hpos := Nat.two_pow_pos p.aw
    exact { h with
      baBase := hpos, baLen := hpos, dataBase := hpos, dataLen := hpos, wsize := hpos, off := hpos, idx := hpos }
  | issueWithReset v => cases ht
  | issueWithForeignWrite v a b =>
    obtain ⟨ha, -, hu⟩ := atPlainAddress_next_iff.1 ht
    split at hu
    · cases hu
    · exact issue_keeps_invAt (h.hostWrite ha b) hu
  | issueWithForeignRead v a =>
    obtain ⟨-, -, hu⟩ := atPlainAddress_next_iff.1 ht
    obtain ⟨u, hissue, rfl⟩ := mapNext_next_iff.1 hu
    exact { issue_keeps_invAt h hissue with }

theorem stepAt_of_pending {p : Params} {s : State} {op : HostOp} {rest : List HostOp} (h : s.pending = op :: rest) :
    stepAt p s = perform p op { s with pending := rest } := by
  rw [stepAt, h]
  rfl

theorem stepAt_of_idle {p : Params} {s : State} (h : s.pending = []) : stepAt p s = .next s := by
  rw [stepAt, h]

theorem stepAt_keeps_invAt {p : Params} {s t : State} (h : s.InvAt p) (ht : stepAt p s = .next t) : t.InvAt p := by
  cases hp : s.pending with
  | nil =>
    rw [stepAt_of_idle hp] at ht
    cases ht
    exact h
  | cons op rest =>
    rw [stepAt_of_pending hp] at ht
    have hpopped : ({ s with pending := rest } : State).InvAt p := { h with }
    exact perform_keeps_invAt hpopped ht

/-- Settles O49: this hardware's step is the one of `Config.params`, and a step of any engine performs one item of the
outside world, each of which keeps the invariant. -/
theorem stepKeepsTheInvariant : Obligations.StepKeepsTheInvariant :=
  ⟨fun _ _ => stepAt_keeps_invAt, fun _ _ _ => stepAt_keeps_invAt⟩

end Sys2Proof.Machine
end

section
/-! PROOFS. The engine of every legal AW (spec/00_scope.md R7, spec/10_state.md R28, spec/20_memory.md R60, R70). -/

namespace Sys2Proof.Machine

theorem runCommand_hashOf (p : Params) (N : Width) (s : State) : runCommand p (hashOf N) s = hashSeq p N s := by
  cases N <;> rfl

/-- Every legal AW keeps the capacity below `2 ^ 64` (R7). -/
theorem State.InvAt.capacity_lt {p : Params} {s : State} (h : s.InvAt p) : 8 * s.baLen.toNat < 2 ^ 64 := by
  have hlen := h.baLen
  have hpow : 2 ^ p.aw ≤ 2 ^ 61 := Nat.pow_le_pow_right (by omega) p.legal.2
  omega

/-- An access of an agent outside the engine to an address without a byte faults (R60). -/
theorem atPlainAddress_of_le {p : Params} {a : Nat} (ha : 2 ^ p.aw ≤ a) (s : State)
    (t : Host.Outcome State Fault Refusal) : atPlainAddress p a s t = .fault (.noSuchAddress a) :=
  if_pos ha

/-- A HASH whose data span meets R70 answers the digest of the span's bytes (R115, R116). -/
theorem hashSeq_next {p : Params} {s : State} (N : Width) (h : DataSpanOkAt p s) :
    ∃ t, hashSeq p N s = .next t ∧ t.digest = fnv1a N (s.mem.bytes s.dataBase.toNat s.dataLen.toNat) ∧
      t.err = .none := by
  rw [hashSeq_eq, dataRefusal_none_iff.2 h]
  exact ⟨_, rfl, rfl, rfl⟩

/-- A data span that reaches past the memory is refused (R70). -/
theorem dataRefusal_of_wraps {p : Params} {s : State} (hl : s.dataLen ≠ 0)
    (hw : 2 ^ p.aw < s.dataBase.toNat + s.dataLen.toNat) : dataRefusal p s = some .dataSpanWraps := by
  rw [dataRefusal, spanRefusal, if_neg (word_toNat_ne_zero.2 hl), if_pos hw]

/-- Settles O57: each step by the equation of its item of the outside world, each HASH by its equation. -/
theorem everyWidthHasItsOwnRegistersAndMemory : Obligations.EveryWidthHasItsOwnRegistersAndMemory := by
  refine ⟨fun p => p.legal, rfl, fun _ => rfl, fun i s => (runCommand_params i s).symm, fun p s rest v =>
    ⟨rfl, rfl, rfl, rfl, rfl, rfl, State.InvAt.capacity_lt, fun a b ha hk => ?hostWrite, fun a ha => ?outside,
      fun N => ⟨fun hok => ?digest, fun hl hw => ?wraps⟩⟩⟩
  case hostWrite =>
    exact ⟨_, atPlainAddress_next_iff.2 ⟨ha, hk, rfl⟩, Memory.read_write_same _ _ _⟩
  case outside => exact atPlainAddress_of_le ha _ _
  case digest =>
    rw [runCommand_hashOf]
    exact hashSeq_next N hok
  case wraps => rw [runCommand_hashOf, hashSeq_eq, dataRefusal_of_wraps hl hw, underPremise_some]

end Sys2Proof.Machine
end

section
/-! PROOFS. INSERT with either bound (spec/42_insert.md R152, R159, R163, R164): the end state of R159 for the windows
of the bound, and what follows from that end state alone. -/

namespace Sys2Proof.Machine

/-- The windows the complete enumeration takes, at any AW (R152). -/
theorem lt_windowCount_complete_iff {p : Params} (hp : p.legacyBound = false) {n w o : Nat} :
    o < windowCount p n w ↔ o + w ≤ n := by
  rw [windowCount, hp, if_neg Bool.false_ne_true]
  split <;> omega

/-! ## What the end state of R159 implies -/

section EndState

variable {W : Nat → Prop} {p : Params} {N : Width} {s t u : State}

/-- A successful INSERT keeps its operands (R39). -/
theorem InsertEndStateFor.operands (h : InsertEndStateFor W N s t) :
    t.baBase = s.baBase ∧ t.baLen = s.baLen ∧ t.dataLen = s.dataLen ∧ t.wsize = s.wsize := by
  rw [h.1]
  exact ⟨rfl, rfl, rfl, rfl⟩

/-- A successful INSERT keeps the premises of R70 and R71, which ask of the operands and the platform alone. -/
theorem InsertEndStateFor.insertOkAt (h : InsertEndStateFor W N s t) (hok : InsertOkAt p s) : InsertOkAt p t := by
  rw [h.1]
  exact hok

/-- The windows are as before the INSERT, since the spans share no byte (R71). -/
theorem InsertEndStateFor.windowAt_eq (h : InsertEndStateFor W N s t) (hd : SpansDisjoint s) {o : Nat}
    (ho : o + s.wsize.toNat ≤ s.dataLen.toNat) : windowAt t o = windowAt s o := by
  obtain ⟨hframe, -, houtside⟩ := h
  have hbytes : t.mem.bytes (s.dataBase.toNat + o) s.wsize.toNat = windowAt s o :=
    Memory.bytes_congr fun a hlo hhi => houtside a (hd a ⟨by omega, by omega⟩)
  rw [← hbytes, hframe]
  rfl

/-- The bit of a window the INSERT processed is 1 (R164). -/
theorem InsertEndStateFor.window_bit (h : InsertEndStateFor W N s t) (hl : 0 < s.baLen.toNat) {o : Nat} (ho : W o) :
    (t.mem.read (addrOf s.baBase.toNat ((fnv1a N (windowAt s o)).toNat % (8 * s.baLen.toNat)))).getLsbD
      (posOf ((fnv1a N (windowAt s o)).toNat % (8 * s.baLen.toNat))) = true := by
  have hin := byteOf_lt (Nat.mod_lt (fnv1a N (windowAt s o)).toNat (by omega : 0 < 8 * s.baLen.toNat))
  obtain ⟨-, hbits, -⟩ := h
  refine (hbits _ hin _ (posOf_lt _)).2 (.inr ⟨o, ho, ?_⟩)
  exact (Nat.div_add_mod _ 8).symm

/-- The same INSERT from the end state sets no further bit: its windows are the same and their bits 1 (R163 (a)). -/
theorem InsertEndStateFor.again_read (h : InsertEndStateFor W N s t) (h' : InsertEndStateFor W N t u)
    (hd : SpansDisjoint s) (hW : ∀ o, W o → o + s.wsize.toNat ≤ s.dataLen.toNat) (a : Nat) :
    u.mem.read a = t.mem.read a := by
  have hwindow : ∀ o, W o → windowAt t o = windowAt s o := fun o ho => h.windowAt_eq hd (hW o ho)
  obtain ⟨hbase, hlen, -, -⟩ := h.operands
  obtain ⟨-, hbits, -⟩ := h
  obtain ⟨-, hbits', houtside'⟩ := h'
  by_cases ha : InBitArray t a
  · obtain ⟨k, rfl⟩ := Nat.exists_eq_add_of_le ha.1
    have hk : k < t.baLen.toNat := by omega
    refine BitVec.eq_of_getLsbD_eq fun j hj => Bool.eq_iff_iff.2 ((hbits' k hk j hj).trans ?_)
    refine or_iff_left_of_imp ?_
    rintro ⟨o, ho, hindex⟩
    rw [hlen, hwindow o ho] at hindex
    rw [hbase]
    exact (hbits k (hlen ▸ hk) j hj).2 (.inr ⟨o, ho, hindex⟩)
  · exact houtside' a ha

end EndState

/-! ## The commands -/

/-- The end state of the windows of an INSERT with either bound (R159). -/
theorem insertWindows_endState (p : Params) (N : Width) {s : State} (hw : s.wsize ≠ 0) (hl : s.baLen ≠ 0)
    (hd : SpansDisjoint s) :
    InsertEndStateFor (fun o => o < windowCount p s.dataLen.toNat s.wsize.toNat) N s
      { insertWindows p N s with err := .none } := by
  have hbits := insertWindows_bits_at p N s hw hl hd
  refine ⟨?frame, fun k hk j hj => ?array, fun a ha => ?outside⟩
  case frame =>
    conv_lhs => rw [insertWindows_frame]
  case array => simpa only [addrOf_posOf_iff hj] using hbits (s.baBase.toNat + k) j
  case outside =>
    refine BitVec.eq_of_getLsbD_eq fun j _ => Bool.eq_iff_iff.2 ((hbits a j).trans (or_iff_left_of_imp ?_))
    rintro ⟨o, -, rfl, -⟩
    have hlen := Nat.pos_of_ne_zero (word_toNat_ne_zero.2 hl)
    exact absurd ⟨Nat.le_add_right _ _, addrOf_lt (Nat.mod_lt _ (by omega)) le_rfl⟩ ha

/-- An INSERT under its premises runs to its successful end (R154). -/
theorem insertSeq_next {p : Params} (N : Width) {s : State} (hw : s.wsize ≠ 0) (hl : s.baLen ≠ 0)
    (hok : InsertOkAt p s) : insertSeq p N s = .next { insertWindows p N s with err := .none } := by
  rw [insertSeq_eq, if_neg (not_or.2 ⟨hw, hl⟩), overlapRefusal_none_iff.2 hok.2.2, insertRefusal_none_iff.2 hok,
    ite_self, underPremise_none]

/-- The same INSERT again runs to its end and changes no byte (R163 (a)). -/
theorem InsertEndStateFor.insertSeq_again {p : Params} {N : Width} {s t : State}
    (h : InsertEndStateFor (fun o => o < windowCount p s.dataLen.toNat s.wsize.toNat) N s t) (hw : s.wsize ≠ 0)
    (hl : s.baLen ≠ 0) (hok : InsertOkAt p s) :
    ∃ u, insertSeq p N t = .next u ∧ ∀ a, u.mem.read a = t.mem.read a := by
  obtain ⟨-, hbaLen, hdataLen, hwsize⟩ := h.operands
  have hwt : t.wsize ≠ 0 := hwsize ▸ hw
  have hlt : t.baLen ≠ 0 := hbaLen ▸ hl
  have hokt := h.insertOkAt hok
  have hend := insertWindows_endState p N hwt hlt hokt.2.2
  rw [hdataLen, hwsize] at hend
  exact ⟨_, insertSeq_next N hwt hlt hokt, h.again_read hend hok.2.2 fun _ => windowCount_fits p⟩

/-- TESTBIT of an index in range of an array that meets R70 answers the bit (R137). -/
theorem testbitSeq_next {p : Params} {s : State} (hi : s.bitIdx.toNat < 8 * s.baLen.toNat) (hok : BitArrayOkAt p s) :
    ∃ t, testbitSeq p s = .next t ∧
      t.tbit = (s.mem.read (addrOf s.baBase.toNat s.bitIdx.toNat)).getLsbD (posOf s.bitIdx.toNat) ∧
      t.err = .none := by
  rw [testbitSeq_eq, capacity, if_neg (Nat.not_le.2 hi), bitsRefusal_none_iff.2 hok]
  exact ⟨_, rfl, rfl, rfl⟩

/-- TESTBIT of the bit of a window that an INSERT has processed answers 1 (R164). -/
theorem InsertEndStateFor.testbit_window {W : Nat → Prop} {p : Params} {N : Width} {s t : State}
    (h : InsertEndStateFor W N s t) (hl : 0 < s.baLen.toNat) (hok : BitArrayOkAt p t) {o : Nat} (ho : W o) :
    ∃ u, testbitSeq p { t with bitIdx := reduce (fnv1a N (windowAt s o)) (8 * s.baLen.toNat) } = .next u ∧
      u.tbit = true ∧ u.err = .none := by
  have hbit := h.window_bit hl ho
  rw [← reduce_toNat] at hbit
  obtain ⟨hbase, hlen, -, -⟩ := h.operands
  have hrange : (reduce (fnv1a N (windowAt s o)) (8 * s.baLen.toNat)).toNat < 8 * t.baLen.toNat := by
    rw [reduce_toNat, hlen]
    exact Nat.mod_lt _ (by omega)
  obtain ⟨u, hu, htbit, herr⟩ :=
    testbitSeq_next (s := { t with bitIdx := reduce (fnv1a N (windowAt s o)) (8 * s.baLen.toNat) }) hrange hok
  exact ⟨u, hu, by rw [htbit, hbase, hbit], herr⟩

/-- A window that ends before the data's end is one of either bound, the last window one of the complete one (R152). -/
theorem lt_windowCount_of_bound {p : Params} {n w o : Nat}
    (h : o + w < n ∨ p.legacyBound = false ∧ o + w ≤ n) : o < windowCount p n w := by
  cases hp : p.legacyBound with
  | false => exact (lt_windowCount_complete_iff hp).2 (h.elim Nat.le_of_lt And.right)
  | true => exact (lt_windowCount_legacy_iff hp).2 (h.resolve_right fun hc => Bool.noConfusion (hp.symm.trans hc.1))

/-- Settles O58: the end state is that of R159 for the windows below `windowCount`, which each bound says in its own
way; the second INSERT and the tests follow from that end state. -/
theorem insertWithEitherBoundInsertsItsWindows : Obligations.InsertWithEitherBoundInsertsItsWindows := by
  intro p N s hw hl hok
  have hl' := Nat.pos_of_ne_zero (word_toNat_ne_zero.2 hl)
  have hend := insertWindows_endState p N hw hl hok.2.2
  simp only [runCommand_insertOf]
  refine ⟨_, insertSeq_next N hw hl hok, fun hp => ?complete, fun hp => ⟨?legacy, fun hshort a => ?lastAlone⟩,
    ?again, fun o ho => ?tests⟩
  case complete => simpa only [lt_windowCount_complete_iff hp] using hend
  case legacy => simpa only [lt_windowCount_legacy_iff hp] using hend
  case lastAlone =>
    have hcount : windowCount p s.dataLen.toNat s.wsize.toNat = 0 := by
      have hnone := lt_windowCount_legacy_iff hp (n := s.dataLen.toNat) (w := s.wsize.toNat) (o := 0)
      omega
    rw [insertWindows_of_no_window N hcount]
    rfl
  case again => exact hend.insertSeq_again hw hl hok
  case tests => exact hend.testbit_window hl' (hend.insertOkAt hok).2.1 (lt_windowCount_of_bound ho)

end Sys2Proof.Machine
end

section
/-! PROOFS. The operand registers at the port (spec/10_state.md R24, R28; spec/44_host_port.md R180, R181). -/

namespace Sys2Proof.Machine

/-- The step performs the host's next operation (R185). -/
theorem step_cons (s : State) (op : HostOp) (rest : List HostOp) :
    step { s with pending := op :: rest } = perform Config.params op { s with pending := rest } :=
  step_of_pending rfl

/-- A write to an operand register stores the value, truncated in the five AW-bit registers and whole in BITIDX; what
the host has still to do and its answers stay as they are (R28, R181). -/
theorem regWrite_operand (p : Params) {n : Nat} (hn : n ≤ 5) (v : Word) (s : State) :
    ∃ t, regWrite p n v s = .next t ∧ regValue t n = some (if n = 5 then v else truncate p v) ∧
      t.pending = s.pending ∧ t.observed = s.observed := by
  interval_cases n <;> exact ⟨_, rfl, rfl, rfl, rfl⟩

/-- Settles O8: the write stores what the register then presents, and the read answers that. -/
theorem operandRegisterReadsBackTruncated : Obligations.OperandRegisterReadsBackTruncated := by
  intro s rest n v hn
  obtain ⟨t, hwrite, hvalue, hpending, hobserved⟩ :=
    regWrite_operand Config.params hn v { s with pending := .regRead n :: rest }
  have hfirst : step { s with pending := .regWrite n v :: .regRead n :: rest } = .next t :=
    (step_cons s _ _).trans hwrite
  have hread : perform Config.params (.regRead n) { t with pending := rest } = .next _ :=
    regRead_next_iff.2 ⟨_, hvalue, rfl⟩
  refine ⟨_, (run_succ_of_step hfirst).trans ((run_succ_of_perform hpending hread).trans (run_zero _)), ?_⟩
  rw [observe_observed, hobserved]
  rfl

end Sys2Proof.Machine
end

section
/-! PROOFS. The frame of each command that runs (spec/10_state.md R25, R26, R39; spec/40_hash.md R117): which fields of
the state it may write. -/

namespace Sys2Proof.Machine

section Frames

variable {p : Params} {N : Width} {s t : State}

/-- A HASH writes DIGEST and STATUS.ERR, the hidden registers and its accesses (R117). -/
theorem hashSeq_frame (ht : hashSeq p N s = .next t) :
    ∃ d e h b, t = { s with digest := d, err := e, hidden := h, bus := b } := by
  rw [hashSeq_eq, underPremise_next_iff] at ht
  obtain ⟨-, rfl⟩ := ht
  exact ⟨_, _, _, _, rfl⟩

/-- An INSERT writes memory and STATUS.ERR, the hidden registers and its accesses. -/
theorem insertSeq_frame (ht : insertSeq p N s = .next t) :
    ∃ m e h b, t = { s with mem := m, err := e, hidden := h, bus := b } := by
  rw [insertSeq_eq] at ht
  split at ht
  · cases ht
    exact ⟨_, _, _, _, rfl⟩
  · obtain ⟨-, rfl⟩ := underPremise_next_iff.1 ht
    rw [insertWindows_frame]
    exact ⟨_, _, _, _, rfl⟩

/-- SETBIT writes memory and STATUS.ERR, the hidden registers and its accesses. -/
theorem setbitSeq_frame (ht : setbitSeq p s = .next t) :
    ∃ m e h b, t = { s with mem := m, err := e, hidden := h, bus := b } := by
  rw [setbitSeq_eq] at ht
  split at ht
  · cases ht
    exact ⟨_, _, _, _, rfl⟩
  · obtain ⟨-, rfl⟩ := underPremise_next_iff.1 ht
    exact ⟨_, _, _, _, rfl⟩

/-- TESTBIT writes STATUS alone, the hidden registers and its accesses. -/
theorem testbitSeq_frame (ht : testbitSeq p s = .next t) :
    ∃ x e h b, t = { s with tbit := x, err := e, hidden := h, bus := b } := by
  rw [testbitSeq_eq] at ht
  split at ht
  · cases ht
    exact ⟨_, _, _, _, rfl⟩
  · obtain ⟨-, rfl⟩ := underPremise_next_iff.1 ht
    exact ⟨_, _, _, _, rfl⟩

end Frames

/-- Settles O41: each command by the frame of its sequence. -/
theorem commandsWriteOnlyTheirResults : Obligations.CommandsWriteOnlyTheirResults := by
  intro i s t ht
  rw [← runCommand_params] at ht
  cases i with
  | hash32 | hash64 =>
    obtain ⟨d, e, h, b, rfl⟩ := hashSeq_frame ht
    simp
  | insert32 | insert64 =>
    obtain ⟨m, e, h, b, rfl⟩ := insertSeq_frame ht
    simp
  | setbit =>
    obtain ⟨m, e, h, b, rfl⟩ := setbitSeq_frame ht
    simp
  | testbit =>
    obtain ⟨x, e, h, b, rfl⟩ := testbitSeq_frame ht
    simp

end Sys2Proof.Machine
end

section
/-! PROOFS. The reset state and the event `Reset` (spec/10_state.md R38, spec/70_reset_and_hazards.md R231). -/

namespace Sys2Proof.Machine

theorem statusOf_none_false : statusOf .none false = 0 := by decide

theorem applyReset_status (s : State) : (applyReset s).status = 0 := statusOf_none_false

/-- After the event `Reset` every assigned register reads as 0 (R38, R231). -/
theorem regValue_applyReset (s : State) {n : Nat} (hn : n ≤ 8) : regValue (applyReset s) n = some 0 := by
  interval_cases n <;> simp [regValue, applyReset_status]

/-- An INSERT that fails R151 reports it and does nothing else. -/
theorem insertSeq_of_invalid (p : Params) (N : Width) {s : State} (h : s.wsize = 0 ∨ s.baLen = 0) :
    insertSeq p N s = .next { s with err := .invalidArgument } := by
  rw [insertSeq_eq, if_pos h]

/-- Nothing is asked of an empty data span (R70). -/
theorem DataSpanOkAt.of_empty {p : Params} {s : State} (h : s.dataLen = 0) : DataSpanOkAt p s :=
  fun hl => absurd h hl

/-- A HASH of an empty data span answers the offset basis (R113 (b)). -/
theorem hashSeq_of_empty (p : Params) (N : Width) {s : State} (h : s.dataLen = 0) :
    ∃ t, hashSeq p N s = .next t ∧ t.digest = fnvBasis N := by
  obtain ⟨t, ht, hdigest, -⟩ := hashSeq_next N (DataSpanOkAt.of_empty (p := p) h)
  exact ⟨t, ht, by rw [hdigest, h]; rfl⟩

/-- The reset state meets the invariant of an engine of any AW (R38). -/
theorem reset_invAt (p : Params) : State.reset.InvAt p where
  memWf := Memory.wf_nil
  memInSpace := fun _ hc => absurd hc List.not_mem_nil
  baBase := Nat.two_pow_pos _
  baLen := Nat.two_pow_pos _
  dataBase := Nat.two_pow_pos _
  dataLen := Nat.two_pow_pos _
  wsize := Nat.two_pow_pos _
  off := Nat.two_pow_pos _
  idx := Nat.two_pow_pos _

/-- Settles O12: a reset of the reset state is that state, so both halves read the registers by one lemma; at reset
WSIZE and DATA_LEN are 0, which fails R151 and makes the data span empty. -/
theorem resetClearsEveryVisibleRegister : Obligations.ResetClearsEveryVisibleRegister := by
  have hinsert (N : Width) : exec (insertOf N) State.reset = .next { State.reset with err := .invalidArgument } :=
    (exec_insertOf N _).trans (insertSeq_of_invalid _ N (.inl rfl))
  have hhash (N : Width) : ∃ t, exec (hashOf N) State.reset = .next t ∧ t.digest = fnvBasis N := by
    rw [exec_hashOf]
    exact hashSeq_of_empty _ N rfl
  exact ⟨fun n hn => regValue_applyReset State.reset hn,
    ⟨_, hinsert .w32, rfl, rfl, rfl⟩, ⟨_, hinsert .w64, rfl, rfl, rfl⟩, hhash .w32, hhash .w64,
    fun s rest => ⟨_, step_cons s .reset rest, fun n hn => regValue_applyReset _ hn, rfl, rfl, rfl⟩⟩

/-- Settles O50: the case of this hardware's AW. -/
theorem resetMeetsTheInvariant : Obligations.ResetMeetsTheInvariant := reset_invAt Config.params

end Sys2Proof.Machine
end

section
/-! PROOFS. Each command sequence inverted once: which states it answers with a next state, which one that is, and how
it is refused (spec/20_memory.md R70, R71; spec/41_bitarray.md R134, R137; spec/42_insert.md R151, R154). -/

namespace Sys2Proof.Machine

section Sequences

variable {p : Params} {N : Width} {s t : State} {e : Refusal}

/-! ## The answers with a next state -/

/-- A HASH runs exactly under R70 of the data span (R115, R116). -/
theorem hashSeq_next_iff :
    hashSeq p N s = .next t ↔ DataSpanOkAt p s ∧
      t = succeed (writeDigest (hashSpan N s.dataBase.toNat s.dataLen.toNat (beginCommand s))) := by
  rw [hashSeq, underPremise_next_iff, dataRefusal_none_iff]

/-- The shape SETBIT and TESTBIT share: the range check, then R70 of the bit array (R134, R137). -/
theorem rangeChecked_next_iff {x y : State} :
    (if indexOutOfRange s then .next x else underPremise (bitsRefusal p s) y) = .next t ↔
      8 * s.baLen.toNat ≤ s.bitIdx.toNat ∧ t = x ∨
        s.bitIdx.toNat < 8 * s.baLen.toNat ∧ BitArrayOkAt p s ∧ t = y := by
  by_cases h : 8 * s.baLen.toNat ≤ s.bitIdx.toNat
  · rw [indexOutOfRange, capacity, if_pos (decide_eq_true h), Host.Outcome.next.injEq, and_iff_right h,
      or_iff_left fun hin => Nat.not_lt.2 h hin.1, eq_comm]
  · rw [indexOutOfRange, capacity, if_neg (mt of_decide_eq_true h), underPremise_next_iff, bitsRefusal_none_iff,
      or_iff_right (mt And.left h), and_iff_right (Nat.not_le.1 h)]

/-- SETBIT runs to an error or under R70 of the bit array (R134). -/
theorem setbitSeq_next_iff :
    setbitSeq p s = .next t ↔
      8 * s.baLen.toNat ≤ s.bitIdx.toNat ∧ t = raise .outOfRange s ∨
        s.bitIdx.toNat < 8 * s.baLen.toNat ∧ BitArrayOkAt p s ∧
          t = succeed (setBitSeq s.baBase.toNat s.bitIdx (beginCommand s)) :=
  rangeChecked_next_iff

/-- TESTBIT runs to an error or under R70 of the bit array (R137). -/
theorem testbitSeq_next_iff :
    testbitSeq p s = .next t ↔
      8 * s.baLen.toNat ≤ s.bitIdx.toNat ∧ t = raise .outOfRange s ∨
        s.bitIdx.toNat < 8 * s.baLen.toNat ∧ BitArrayOkAt p s ∧
          t = succeed (setTbit (testBitSeq s.baBase.toNat s.bitIdx (beginCommand s)).1
            (testBitSeq s.baBase.toNat s.bitIdx (beginCommand s)).2) :=
  rangeChecked_next_iff

/-- The premise an INSERT with valid arguments is judged by (R70, R71): without a window R71 alone. -/
theorem insertPremise_none_iff :
    (if windowCount p s.dataLen.toNat s.wsize.toNat = 0 then overlapRefusal s else insertRefusal p s) = none ↔
      windowCount p s.dataLen.toNat s.wsize.toNat = 0 ∧ SpansDisjoint s ∨ InsertOkAt p s := by
  split
  · rename_i hcount
    rw [overlapRefusal_none_iff]
    exact ⟨fun hd => .inl ⟨hcount, hd⟩, fun h => h.elim And.right fun hok => hok.2.2⟩
  · rename_i hcount
    rw [insertRefusal_none_iff]
    exact ⟨.inr, fun h => h.resolve_left fun hnone => hcount hnone.1⟩

/-- An INSERT runs to an error, or under R71 alone without a window, or under R70 and R71 (R151, R154). -/
theorem insertSeq_next_iff :
    insertSeq p N s = .next t ↔
      (s.wsize = 0 ∨ s.baLen = 0) ∧ t = raise .invalidArgument s ∨
        (s.wsize ≠ 0 ∧ s.baLen ≠ 0) ∧
          (windowCount p s.dataLen.toNat s.wsize.toNat = 0 ∧ SpansDisjoint s ∨ InsertOkAt p s) ∧
          t = succeed (insertWindows p N s) := by
  by_cases hargs : s.wsize = 0 ∨ s.baLen = 0
  · rw [insertSeq_of_invalid p N hargs, Host.Outcome.next.injEq, and_iff_right hargs,
      or_iff_left fun hvalid => not_or.2 hvalid.1 hargs]
    exact eq_comm
  · rw [insertSeq_eq, if_neg hargs, underPremise_next_iff, insertPremise_none_iff,
      or_iff_right (mt And.left hargs), and_iff_right (not_or.1 hargs)]
    rfl

/-! ## The refusals -/

theorem hashSeq_refused (h : dataRefusal p s = some e) : hashSeq p N s = .refused e := by
  rw [hashSeq_eq, h, underPremise_some]

theorem setbitSeq_refused (hi : s.bitIdx.toNat < 8 * s.baLen.toNat) (h : bitsRefusal p s = some e) :
    setbitSeq p s = .refused e := by
  rw [setbitSeq_eq, capacity, if_neg (Nat.not_le.2 hi), h, underPremise_some]

theorem testbitSeq_refused (hi : s.bitIdx.toNat < 8 * s.baLen.toNat) (h : bitsRefusal p s = some e) :
    testbitSeq p s = .refused e := by
  rw [testbitSeq_eq, capacity, if_neg (Nat.not_le.2 hi), h, underPremise_some]

/-- An INSERT that is to process a window asks for all the premises (R70, R71). -/
theorem insertSeq_refused (hw : s.wsize ≠ 0) (hl : s.baLen ≠ 0)
    (hcount : windowCount p s.dataLen.toNat s.wsize.toNat ≠ 0) (h : insertRefusal p s = some e) :
    insertSeq p N s = .refused e := by
  rw [insertSeq_eq, if_neg (not_or.2 ⟨hw, hl⟩), if_neg hcount, h, underPremise_some]

/-- An INSERT without a window asks for R71 alone. -/
theorem insertSeq_refused_of_no_window (hw : s.wsize ≠ 0) (hl : s.baLen ≠ 0)
    (hcount : windowCount p s.dataLen.toNat s.wsize.toNat = 0) (h : overlapRefusal s = some e) :
    insertSeq p N s = .refused e := by
  rw [insertSeq_eq, if_neg (not_or.2 ⟨hw, hl⟩), if_pos hcount, h, underPremise_some]

theorem bitsRefusal_of_wraps (hl : s.baLen ≠ 0) (hw : 2 ^ p.aw < s.baBase.toNat + s.baLen.toNat) :
    bitsRefusal p s = some .bitArrayWraps := by
  rw [bitsRefusal, spanRefusal, if_neg (word_toNat_ne_zero.2 hl), if_pos hw]

/-- A span inside the memory with a byte that is not plain is refused by that name (R70). -/
theorem spanRefusal_of_notPlain {rs : List Region} {base len a : Nat} {wraps notPlain : Refusal}
    (hend : base + len ≤ 2 ^ p.aw) (ha : base ≤ a ∧ a < base + len) (hk : kindAt rs a ≠ .plain) :
    spanRefusal p rs base len wraps notPlain = some notPlain := by
  have hplain : ¬rangePlain rs base (base + len) = true := fun h => hk (rangePlain_iff.1 h a ha.1 ha.2)
  rw [spanRefusal, if_neg (by omega), if_neg (by omega), if_neg hplain]

theorem insertRefusal_of_data (h : dataRefusal p s = some e) : insertRefusal p s = some e := by
  rw [insertRefusal, h, Option.some_or]

theorem insertRefusal_of_bits (hok : DataSpanOkAt p s) (h : bitsRefusal p s = some e) :
    insertRefusal p s = some e := by
  rw [insertRefusal, dataRefusal_none_iff.2 hok, h, Option.none_or, Option.some_or]

theorem insertRefusal_of_overlap (hdata : DataSpanOkAt p s) (hbits : BitArrayOkAt p s)
    (h : overlapRefusal s = some e) : insertRefusal p s = some e := by
  rw [insertRefusal, dataRefusal_none_iff.2 hdata, bitsRefusal_none_iff.2 hbits, h, Option.none_or, Option.none_or]

end Sequences

/-- Settles O45: the inversion of each sequence, with the end state forgotten. -/
theorem commandsRunExactlyUnderTheirPremises : Obligations.CommandsRunExactlyUnderTheirPremises := by
  intro s
  have hhash (N : Width) : (∃ t, hashSeq Config.params N s = .next t) ↔ DataSpanOk s := by
    simp only [hashSeq_next_iff, exists_and_left, exists_eq, and_true]
  have hrange : 8 * s.baLen.toNat ≤ s.bitIdx.toNat ∨ s.bitIdx.toNat < 8 * s.baLen.toNat ∧ BitArrayOk s ↔
      8 * s.baLen.toNat ≤ s.bitIdx.toNat ∨ BitArrayOk s := by
    rw [or_and_left, and_iff_right (Nat.lt_or_ge _ _).symm]
  have hinsert (N : Width) : (∃ t, insertSeq Config.params N s = .next t) ↔
      s.wsize = 0 ∨ s.baLen = 0 ∨ s.dataLen.toNat < s.wsize.toNat ∧ SpansDisjoint s ∨ InsertOk s := by
    simp only [insertSeq_next_iff, exists_or, exists_and_left, exists_eq, and_true]
    by_cases hargs : s.wsize = 0 ∨ s.baLen = 0
    · simp only [hargs, true_or, ← or_assoc]
    · have hw := Nat.pos_of_ne_zero (word_toNat_ne_zero.2 (not_or.1 hargs).1)
      rw [windowCount_eq_zero_iff hw, ← or_assoc, or_iff_right hargs, or_iff_right hargs,
        and_iff_right (not_or.1 hargs)]
  refine ⟨hhash .w32, hhash .w64, ?_, ?_, hinsert .w32, hinsert .w64⟩
  · rw [exec_setbit]
    simp only [setbitSeq_next_iff, exists_or, exists_and_left, exists_eq, and_true, hrange]
  · rw [exec_testbit]
    simp only [testbitSeq_next_iff, exists_or, exists_and_left, exists_eq, and_true, hrange]

/-- A command that checks its operands and then its premises answers an error, or runs, or is refused. -/
theorem checked_ne_fault (failed : Bool) (r : Option Refusal) (x y : State) (f : Fault) :
    (if failed then .next x else underPremise r y) ≠ .fault f := by
  cases failed with
  | true => exact nofun
  | false => exact underPremise_ne_fault r y f

/-- Settles O44: a HASH is only judged by its premise, the other commands check their operands first. -/
theorem commandsNeverFault : Obligations.CommandsNeverFault := by
  intro i s e
  cases i with
  | hash32 | hash64 => exact underPremise_ne_fault _ _ e
  | insert32 | insert64 | setbit | testbit => exact checked_ne_fault _ _ _ _ e

/-- Settles O46: each clause names the first premise that fails, and the sequence answers that refusal. -/
theorem brokenPremisesAreRefusedByName : Obligations.BrokenPremisesAreRefusedByName := by
  have hbit (i : Instr) (s : State) (e : Refusal) (hi : i = .setbit ∨ i = .testbit)
      (hrange : s.bitIdx.toNat < 8 * s.baLen.toNat) (h : bitsRefusal Config.params s = some e) :
      exec i s = .refused e := by
    rcases hi with rfl | rfl
    · exact setbitSeq_refused hrange h
    · exact testbitSeq_refused hrange h
  simp only [Obligations.BrokenPremisesAreRefusedByName, exec_hashOf, exec_insertOf]
  refine ⟨fun N s hl hw => hashSeq_refused (dataRefusal_of_wraps hl hw),
    fun N s a hend ha hk => hashSeq_refused (spanRefusal_of_notPlain hend ha hk),
    fun i s hi hrange hw => hbit i s _ hi hrange (bitsRefusal_of_wraps ?nonempty hw),
    fun i s a hi hrange hend ha hk => hbit i s _ hi hrange (spanRefusal_of_notPlain hend ha hk),
    fun N s hw hl hfits => ?windows, fun N s a hw hl hshort h1 h2 => ?noWindow⟩
  case nonempty => exact word_toNat_ne_zero.1 (by omega)
  case windows =>
    have hw' := Nat.pos_of_ne_zero (word_toNat_ne_zero.2 hw)
    have hcount : windowCount Config.params s.dataLen.toNat s.wsize.toNat ≠ 0 :=
      fun h => Nat.not_lt.2 hfits ((windowCount_eq_zero_iff hw').1 h)
    have hn : s.dataLen ≠ 0 := word_toNat_ne_zero.1 (by omega)
    have refused {e : Refusal} : insertRefusal Config.params s = some e → insertSeq Config.params N s = .refused e :=
      insertSeq_refused hw hl hcount
    exact ⟨fun hwraps => refused (insertRefusal_of_data (dataRefusal_of_wraps hn hwraps)),
      fun hend a ha hk => refused (insertRefusal_of_data (spanRefusal_of_notPlain hend ha hk)),
      fun hok hwraps => refused (insertRefusal_of_bits hok (bitsRefusal_of_wraps hl hwraps)),
      fun hok hend a ha hk => refused (insertRefusal_of_bits hok (spanRefusal_of_notPlain hend ha hk)),
      fun hdata hbits a h1 h2 => refused (insertRefusal_of_overlap hdata hbits (overlapRefusal_of_share h1 h2))⟩
  case noWindow =>
    have hw' := Nat.pos_of_ne_zero (word_toNat_ne_zero.2 hw)
    exact insertSeq_refused_of_no_window hw hl ((windowCount_eq_zero_iff hw').2 hshort) (overlapRefusal_of_share h1 h2)

end Sys2Proof.Machine
end

section
/-! PROOFS. What the commands do to memory (spec/20_memory.md R79) and which accesses they make (R70, R157). -/

namespace Sys2Proof.Machine

/-! ## Memory only gains bits of the array -/

/-- From `s` to `t` memory has gained bits at most, and those in the bit array of `s` (R79). -/
structure GrowsInArray (s t : State) : Prop where
  keepsOnes : ∀ a j, (s.mem.read a).getLsbD j = true → (t.mem.read a).getLsbD j = true
  keepsOutside : ∀ a, ¬InBitArray s a → t.mem.read a = s.mem.read a

section Commands

variable {p : Params} {N : Width} {s t : State}

theorem GrowsInArray.of_mem_eq (h : t.mem = s.mem) : GrowsInArray s t where
  keepsOnes a j hj := by rw [h, hj]
  keepsOutside a _ := by rw [h]

/-- The byte of an index in range lies in the bit array (R131). -/
theorem inBitArray_addrOf {i : Nat} (hi : i < 8 * s.baLen.toNat) : InBitArray s (addrOf s.baBase.toNat i) :=
  ⟨Nat.le_add_right _ _, addrOf_lt hi le_rfl⟩

theorem setbitSeq_growsInArray (ht : setbitSeq p s = .next t) : GrowsInArray s t := by
  obtain ⟨-, rfl⟩ | ⟨hi, -, rfl⟩ := setbitSeq_next_iff.1 ht
  · exact .of_mem_eq rfl
  · rw [setBitSeq_eq]
    refine ⟨fun a j hj => ?_, fun a ha => Memory.read_write_other fun heq => ha (heq ▸ inBitArray_addrOf hi)⟩
    exact (getLsbD_setBit _ _ _ _ _).trans (by simp [hj])

theorem insertSeq_growsInArray (ht : insertSeq p N s = .next t) : GrowsInArray s t := by
  obtain ⟨-, rfl⟩ | ⟨⟨hw, hl⟩, hpremise, rfl⟩ := insertSeq_next_iff.1 ht
  · exact .of_mem_eq rfl
  · have hd : SpansDisjoint s := hpremise.elim And.right fun hok => hok.2.2
    exact ⟨fun a j hj => (insertWindows_bits_at p N s hw hl hd a j).2 (.inl hj),
      (insertWindows_endState p N hw hl hd).2.2⟩

theorem runCommand_growsInArray {i : Instr} (ht : runCommand p i s = .next t) : GrowsInArray s t := by
  cases i with
  | hash32 | hash64 =>
    obtain ⟨d, e, h, b, rfl⟩ := hashSeq_frame ht
    exact .of_mem_eq rfl
  | insert32 | insert64 => exact insertSeq_growsInArray ht
  | setbit => exact setbitSeq_growsInArray ht
  | testbit =>
    obtain ⟨x, e, h, b, rfl⟩ := testbitSeq_frame ht
    exact .of_mem_eq rfl

/-! ## The accesses -/

/-- The access lies inside the address space and in a span of `s`, and in the bit array if it is a write (R70, R157). -/
def InsideSpans (p : Params) (s : State) (x : Access) : Prop :=
  x.addr < 2 ^ p.aw ∧ (InDataSpan s x.addr ∨ InBitArray s x.addr) ∧ (x.isWrite = true → InBitArray s x.addr)

/-- The accesses made from `s` to `t` lie inside the spans of `s`. -/
def NewAccessesInside (p : Params) (s t : State) : Prop :=
  ∃ new, t.bus = new ++ s.bus ∧ ∀ x ∈ new, InsideSpans p s x

theorem NewAccessesInside.of_bus_eq (h : t.bus = s.bus) : NewAccessesInside p s t :=
  ⟨[], h, List.forall_mem_nil _⟩

theorem DataSpanOkAt.insideSpans (h : DataSpanOkAt p s) {x : Access} (hx : x.isWrite = false)
    (ha : InDataSpan s x.addr) : InsideSpans p s x :=
  ⟨lt_of_lt_of_le ha.2 (h (word_toNat_ne_zero.1 (by omega))).1, .inl ha, fun hw => by simp [hx] at hw⟩

theorem BitArrayOkAt.insideSpans (h : BitArrayOkAt p s) {x : Access} (ha : InBitArray s x.addr) :
    InsideSpans p s x :=
  ⟨lt_of_lt_of_le ha.2 (h.end_le (by omega)), .inr ha, fun _ => ha⟩

/-- Reading a span only reads, and only in the span (R114). -/
theorem spanReads_inside {base len : Nat} {x : Access} (hx : x ∈ spanReads base len) :
    x.isWrite = false ∧ base ≤ x.addr ∧ x.addr < base + len := by
  simp only [spanReads, List.mem_map, List.mem_range] at hx
  obtain ⟨k, hk, rfl⟩ := hx
  exact ⟨rfl, Nat.le_add_right _ _, Nat.add_lt_add_left hk _⟩

theorem hashSeq_newAccessesInside (ht : hashSeq p N s = .next t) : NewAccessesInside p s t := by
  obtain ⟨hok, rfl⟩ := hashSeq_next_iff.1 ht
  rw [hashSpan_eq N _ _ _ s.dataLen.isLt]
  refine ⟨_, rfl, fun x hx => ?_⟩
  obtain ⟨hread, ha⟩ := spanReads_inside (List.mem_reverse.1 hx)
  exact hok.insideSpans hread ha

theorem setbitSeq_newAccessesInside (ht : setbitSeq p s = .next t) : NewAccessesInside p s t := by
  obtain ⟨-, rfl⟩ | ⟨hi, hok, rfl⟩ := setbitSeq_next_iff.1 ht
  · exact .of_bus_eq rfl
  · rw [setBitSeq_eq]
    refine ⟨[_, _], rfl, List.forall_mem_cons.2 ⟨?_, List.forall_mem_singleton.2 ?_⟩⟩ <;>
      exact hok.insideSpans (inBitArray_addrOf hi)

theorem testbitSeq_newAccessesInside (ht : testbitSeq p s = .next t) : NewAccessesInside p s t := by
  obtain ⟨-, rfl⟩ | ⟨hi, hok, rfl⟩ := testbitSeq_next_iff.1 ht
  · exact .of_bus_eq rfl
  · rw [testBitSeq_eq]
    exact ⟨[_], rfl, List.forall_mem_singleton.2 (hok.insideSpans (inBitArray_addrOf hi))⟩

theorem insertSeq_newAccessesInside (ht : insertSeq p N s = .next t) : NewAccessesInside p s t := by
  obtain ⟨-, rfl⟩ | ⟨⟨hw, hl⟩, hpremise, rfl⟩ := insertSeq_next_iff.1 ht
  · exact .of_bus_eq rfl
  · by_cases hcount : windowCount p s.dataLen.toNat s.wsize.toNat = 0
    · rw [insertWindows_of_no_window N hcount]
      exact .of_bus_eq rfl
    · obtain ⟨hdata, hbits, -⟩ := hpremise.resolve_left fun hc => hcount hc.1
      have hw' := Nat.pos_of_ne_zero (word_toNat_ne_zero.2 hw)
      have hl' := Nat.pos_of_ne_zero (word_toNat_ne_zero.2 hl)
      have hle := windowCount_le p (n := s.dataLen.toNat) hw'
      have hlast := windowCount_fits p (Nat.sub_one_lt hcount)
      obtain ⟨new, hbus, -, -, hnew⟩ := insertLoop_bus N s.dataBase.toNat s.wsize.toNat s.baBase.toNat s.baLen.toNat
        (windowCount p s.dataLen.toNat s.wsize.toNat) (beginCommand s) s.wsize.isLt hl'
        (by rw [beginCommand_off]; have := s.dataLen.isLt; omega)
      rw [beginCommand_off] at hnew
      refine ⟨new, hbus, fun x hx => ?_⟩
      obtain ha | ⟨hread, hlo, hhi⟩ := hnew x hx
      · exact hbits.insideSpans ha
      · exact hdata.insideSpans hread ⟨by omega, by omega⟩

theorem runCommand_newAccessesInside {i : Instr} (ht : runCommand p i s = .next t) : NewAccessesInside p s t := by
  cases i with
  | hash32 | hash64 => exact hashSeq_newAccessesInside ht
  | insert32 | insert64 => exact insertSeq_newAccessesInside ht
  | setbit => exact setbitSeq_newAccessesInside ht
  | testbit => exact testbitSeq_newAccessesInside ht

end Commands

/-- Settles O42: each command by what its sequence does to memory. -/
theorem commandsOnlySetBitsOfTheArray : Obligations.CommandsOnlySetBitsOfTheArray := by
  intro i s t ht
  rw [← runCommand_params] at ht
  obtain ⟨hones, houtside⟩ := runCommand_growsInArray ht
  exact ⟨hones, houtside⟩

/-- Settles O43: each command by the accesses of its sequence. -/
theorem accessesStayInsideTheSpans : Obligations.AccessesStayInsideTheSpans := by
  intro i s t ht
  rw [← runCommand_params] at ht
  exact runCommand_newAccessesInside ht

end Sys2Proof.Machine
end

section
/-! PROOFS. Memory outside the two spans is of no consequence to a command (spec/20_memory.md R60, R70). -/

namespace Sys2Proof.Machine

section Agreement

variable {P : Nat → Prop} {m m' : Memory}

/-- The memories hold the same bytes at the addresses `P` allows. -/
def AgreeOn (P : Nat → Prop) (m m' : Memory) : Prop := ∀ a, P a → m'.read a = m.read a

theorem AgreeOn.write (h : AgreeOn P m m') (a : Nat) (v : Byte) : AgreeOn P (m.write a v) (m'.write a v) := by
  intro b hb
  rw [Memory.read_write, Memory.read_write, h b hb]

theorem AgreeOn.bytes (h : AgreeOn P m m') {base len : Nat} (hspan : ∀ a, base ≤ a → a < base + len → P a) :
    m'.bytes base len = m.bytes base len :=
  Memory.bytes_congr fun a hlo hhi => h a (hspan a hlo hhi)

end Agreement

/-! ## The window loop over memories that agree on the data and on the bit array -/

section Windows

variable {P : Nat → Prop} (N : Width) {db w bb len : Nat} (s : State) {m : Memory} (h : w < 2 ^ 64) (hl : 0 < len)
  (hbits : ∀ a, bb ≤ a → a < bb + len → P a)

include h hl hbits

theorem insertStep_agree (hm : AgreeOn P s.mem m)
    (hwindow : ∀ a, db + s.hidden.off.toNat ≤ a → a < db + s.hidden.off.toNat + w → P a) :
    ∃ m', insertStep N db w bb (8 * len) { s with mem := m } = { insertStep N db w bb (8 * len) s with mem := m' } ∧
      AgreeOn P (insertStep N db w bb (8 * len) s).mem m' := by
  have hbytes := hm.bytes hwindow
  have hbyte (i : Nat) : m.read (addrOf bb (i % (8 * len))) = s.mem.read (addrOf bb (i % (8 * len))) :=
    hm _ (hbits _ (Nat.le_add_right _ _) (addrOf_lt (Nat.mod_lt _ (by omega)) le_rfl))
  simp only [insertStep_eq N db w bb (8 * len) _ h, windowIndex, hbytes, hbyte]
  exact ⟨_, rfl, hm.write _ _⟩

theorem insertLoop_agree {n : Nat} (k : Nat) (hk : s.hidden.off.toNat + k < 2 ^ 64)
    (hfit : ∀ o, o < s.hidden.off.toNat + k → o + w ≤ n) (hdata : ∀ a, db ≤ a → a < db + n → P a)
    (hm : AgreeOn P s.mem m) :
    ∃ m', insertLoop N db w bb (8 * len) k { s with mem := m } =
        { insertLoop N db w bb (8 * len) k s with mem := m' } ∧
      AgreeOn P (insertLoop N db w bb (8 * len) k s).mem m' := by
  induction k generalizing s m with
  | zero => exact ⟨m, rfl, hm⟩
  | succ k ih =>
    have hlast := hfit s.hidden.off.toNat (by omega)
    obtain ⟨m', hstep, hm'⟩ := insertStep_agree N s h hl hbits hm (db := db) fun a hlo hhi =>
      hdata a (by omega) (by omega)
    have hoff : (insertStep N db w bb (8 * len) s).hidden.off.toNat = s.hidden.off.toNat + 1 := by
      rw [insertStep_eq N db w bb (8 * len) s h, off_succ hk]
    rw [insertLoop, insertLoop, hstep]
    exact ih _ (by omega) (fun o ho => hfit o (by omega)) hm'

end Windows

/-! ## The commands -/

/-- The address lies in one of the two spans. -/
def InEitherSpan (s : State) (a : Nat) : Prop := InDataSpan s a ∨ InBitArray s a

/-- From `s` with the memory `m` the command `f` goes as from `s` to `t`, to a memory that agrees with that of `t` on
the spans. -/
def RunsAlike (f : State → Host.Outcome State Fault Refusal) (s t : State) (m : Memory) : Prop :=
  ∃ m', f { s with mem := m } = .next { t with mem := m' } ∧ AgreeOn (InEitherSpan s) t.mem m'

section Commands

variable {p : Params} {N : Width} {s t : State} {m : Memory} (hm : AgreeOn (InEitherSpan s) s.mem m)

include hm

theorem hashSeq_runsAlike (ht : hashSeq p N s = .next t) : RunsAlike (hashSeq p N) s t m := by
  obtain ⟨hok, rfl⟩ := hashSeq_next_iff.1 ht
  have hbytes := hm.bytes fun a hlo hhi => .inl ⟨hlo, hhi⟩
  rw [hashSpan_eq N _ _ _ s.dataLen.isLt]
  refine ⟨m, hashSeq_next_iff.2 ⟨hok, ?_⟩, hm⟩
  rw [hashSpan_eq N _ _ _ s.dataLen.isLt]
  simp only [beginCommand_mem, hbytes]
  rfl

theorem setbitSeq_runsAlike (ht : setbitSeq p s = .next t) : RunsAlike (setbitSeq p) s t m := by
  obtain ⟨hi, rfl⟩ | ⟨hi, hok, rfl⟩ := setbitSeq_next_iff.1 ht
  · exact ⟨m, setbitSeq_next_iff.2 (.inl ⟨hi, rfl⟩), hm⟩
  · have hbyte := hm _ (.inr (inBitArray_addrOf hi))
    rw [setBitSeq_eq]
    refine ⟨_, setbitSeq_next_iff.2 (.inr ⟨hi, hok, ?_⟩), hm.write _ _⟩
    rw [setBitSeq_eq]
    simp only [beginCommand_mem, hbyte]
    rfl

theorem testbitSeq_runsAlike (ht : testbitSeq p s = .next t) : RunsAlike (testbitSeq p) s t m := by
  obtain ⟨hi, rfl⟩ | ⟨hi, hok, rfl⟩ := testbitSeq_next_iff.1 ht
  · exact ⟨m, testbitSeq_next_iff.2 (.inl ⟨hi, rfl⟩), hm⟩
  · have hbyte := hm _ (.inr (inBitArray_addrOf hi))
    rw [testBitSeq_eq]
    refine ⟨m, testbitSeq_next_iff.2 (.inr ⟨hi, hok, ?_⟩), hm⟩
    rw [testBitSeq_eq]
    simp only [beginCommand_mem, hbyte]
    rfl

theorem insertSeq_runsAlike (ht : insertSeq p N s = .next t) : RunsAlike (insertSeq p N) s t m := by
  obtain ⟨hargs, rfl⟩ | ⟨hargs, hpremise, rfl⟩ := insertSeq_next_iff.1 ht
  · exact ⟨m, insertSeq_next_iff.2 (.inl ⟨hargs, rfl⟩), hm⟩
  · have hcount := windowCount_le p (n := s.dataLen.toNat) (Nat.pos_of_ne_zero (word_toNat_ne_zero.2 hargs.1))
    obtain ⟨m', hloop, hm'⟩ := insertLoop_agree N (beginCommand s) s.wsize.isLt
      (Nat.pos_of_ne_zero (word_toNat_ne_zero.2 hargs.2)) (fun a hlo hhi => .inr ⟨hlo, hhi⟩)
      (windowCount p s.dataLen.toNat s.wsize.toNat) (by rw [beginCommand_off]; have := s.dataLen.isLt; omega)
      (fun o ho => windowCount_fits p (by rwa [beginCommand_off, Nat.zero_add] at ho))
      (fun a hlo hhi => .inl ⟨hlo, hhi⟩) hm
    exact ⟨m', insertSeq_next_iff.2 (.inr ⟨hargs, hpremise, (congrArg succeed hloop).symm⟩), hm'⟩

theorem runCommand_runsAlike {i : Instr} (ht : runCommand p i s = .next t) : RunsAlike (runCommand p i) s t m := by
  cases i with
  | hash32 | hash64 => exact hashSeq_runsAlike hm ht
  | insert32 | insert64 => exact insertSeq_runsAlike hm ht
  | setbit => exact setbitSeq_runsAlike hm ht
  | testbit => exact testbitSeq_runsAlike hm ht

end Commands

/-- Settles O48: the two runs go alike and agree on the spans; outside them neither changes a byte (R79). -/
theorem commandsDependOnTheSpansAlone : Obligations.CommandsDependOnTheSpansAlone := by
  intro i s t m ht hm
  rw [← runCommand_params] at ht
  obtain ⟨m', ht', hm'⟩ := runCommand_runsAlike hm ht
  have houtside := (runCommand_growsInArray ht').keepsOutside
  exact ⟨_, (runCommand_params i _).symm.trans ht', rfl, hm', fun a _ ha => houtside a ha⟩

end Sys2Proof.Machine
end

section
/-! PROOFS. The host's accesses to its memory between commands (spec/20_memory.md R61, spec/44_host_port.md R193). -/

namespace Sys2Proof.Machine

/-- Settles O10: both accesses meet plain memory, and a read after the write is the law of memory. -/
theorem hostReadsTheByteLastWritten : Obligations.HostReadsTheByteLastWritten := by
  intro s rest a c b ha hc hka hkc
  have hwrite : step { s with pending := .memWrite a b :: .memRead c :: rest } =
      .next (hostWrite a b { s with pending := .memRead c :: rest }) :=
    (step_cons s _ _).trans (atPlainAddress_next_iff.2 ⟨ha, hka, rfl⟩)
  have hread : perform Config.params (.memRead c) (hostWrite a b { s with pending := rest }) =
      .next (observe (.mem c ((s.mem.write a b).read c)) (hostWrite a b { s with pending := rest })) :=
    atPlainAddress_next_iff.2 ⟨hc, hkc, rfl⟩
  refine ⟨_, (run_succ_of_step hwrite).trans ((run_succ_of_perform rfl hread).trans (run_zero _)), ?_,
    fun d => Memory.read_write s.mem a d b⟩
  rw [Memory.read_write]
  rfl

end Sys2Proof.Machine
end

section
/-! PROOFS. The command words (spec/30_encoding.md R90, R91, R92, R95; spec/60_exceptions.md R203): decoding undoes
encoding first on fields, then on words; every word that is not a command's is reserved. -/

namespace Sys2Proof

/-! ## Fields -/

theorem decodeFields_encodeFields (i : Instr) : decodeFields (encodeFields i) = .command i := by
  cases i <;> rfl

/-- The fields R91 gives a command are the only ones that decode to it: OP and W name the command, and with OP 3 or 4
a W of 1 is reserved (R95). -/
theorem eq_encodeFields_of_decodeFields {f : CmdFields} {i : Instr} (h : decodeFields f = .command i) :
    f = encodeFields i := by
  obtain ⟨z, y, w, o⟩ := f
  unfold decodeFields at h
  split at h
  · cases h
  next hzero =>
    obtain ⟨rfl, rfl⟩ : z = 0 ∧ y = 0 := by simpa using hzero
    split at h
    next hop => subst hop; obtain rfl | rfl := bit_cases w <;> cases h <;> rfl
    split at h
    next hop => subst hop; obtain rfl | rfl := bit_cases w <;> cases h <;> rfl
    split at h
    next hop => subst hop; obtain rfl | rfl := bit_cases w <;> cases h; rfl
    split at h
    next hop => subst hop; obtain rfl | rfl := bit_cases w <;> cases h; rfl
    cases h

/-! ## Words -/

theorem decode_encode (i : Instr) : decode (encode i) = .command i := by
  rw [decode, fieldsOf_encode, decodeFields_encodeFields]

theorem decode_eq_command_iff {v : Word} {i : Instr} : decode v = .command i ↔ v = encode i := by
  constructor
  · intro h
    calc v = wordOf (fieldsOf v) := (wordOf_fieldsOf v).symm
      _ = encode i := congrArg wordOf (eq_encodeFields_of_decodeFields h)
  · rintro rfl
    exact decode_encode i

theorem decode_eq_illegal_iff {v : Word} : decode v = .illegal ↔ ∀ i, v ≠ encode i := by
  simp only [ne_eq, ← decode_eq_command_iff]
  cases decode v <;> simp

@[simp] theorem encode_hash32 : encode .hash32 = 0x01 := rfl

@[simp] theorem encode_hash64 : encode .hash64 = 0x09 := rfl

@[simp] theorem encode_insert32 : encode .insert32 = 0x02 := rfl

@[simp] theorem encode_insert64 : encode .insert64 = 0x0A := rfl

@[simp] theorem encode_setbit : encode .setbit = 0x03 := rfl

@[simp] theorem encode_testbit : encode .testbit = 0x04 := rfl

/-- A word is reserved (R95) exactly when it is none of the six words of R91. -/
theorem decode_eq_illegal_iff_not_word {v : Word} :
    decode v = .illegal ↔ v ≠ 0x01 ∧ v ≠ 0x09 ∧ v ≠ 0x02 ∧ v ≠ 0x0A ∧ v ≠ 0x03 ∧ v ≠ 0x04 := by
  rw [decode_eq_illegal_iff]
  constructor
  · intro h
    exact ⟨h .hash32, h .hash64, h .insert32, h .insert64, h .setbit, h .testbit⟩
  · rintro ⟨h1, h9, h2, hA, h3, h4⟩ i
    cases i with
    | hash32 => exact h1
    | hash64 => exact h9
    | insert32 => exact h2
    | insert64 => exact hA
    | setbit => exact h3
    | testbit => exact h4

theorem encodesWellFormed : ∀ i : Instr, Laws.EncodesWellFormed.Statement i
  | .hash32 => Laws.EncodesWellFormed.hash32
  | .hash64 => Laws.EncodesWellFormed.hash64
  | .insert32 => Laws.EncodesWellFormed.insert32
  | .insert64 => Laws.EncodesWellFormed.insert64
  | .setbit => Laws.EncodesWellFormed.setbit
  | .testbit => Laws.EncodesWellFormed.testbit

/-- A value with a 1 in bits 63:4 is reserved (R95). -/
theorem decode_of_sixteen_le {v : Word} (h : 16 ≤ v.toNat) : decode v = .illegal := by
  rw [decode_eq_illegal_iff]
  rintro i rfl
  obtain ⟨_, _, hlt⟩ := encodesWellFormed i
  omega

/-- Settles O2: a word and its fields determine each other, and decoding the fields undoes their encoding. -/
theorem decodeExactlyUndoesEncode : Obligations.DecodeExactlyUndoesEncode :=
  ⟨fun _ _ => decode_eq_command_iff, fun _ => decode_eq_illegal_iff_not_word, encode_hash32, encode_hash64,
    encode_insert32, encode_insert64, encode_setbit, encode_testbit⟩

/-- Settles O3: a reserved word is none of the six, so its issue only reports the error. -/
theorem reservedWordOnlyReportsIllegalCommand : Obligations.ReservedWordOnlyReportsIllegalCommand := by
  refine ⟨fun _ => decode_of_sixteen_le, ?_, ?_⟩
  · simp [decode_eq_illegal_iff_not_word]
  · intro s v rest hpending h1 h9 h2 hA h3 h4
    have hillegal : decode v = .illegal := decode_eq_illegal_iff_not_word.2 ⟨h1, h9, h2, hA, h3, h4⟩
    rw [Machine.step_of_pending hpending]
    exact Machine.issue_of_illegal hillegal Config.params _

/-- Settles O1: the six words are those of the commands, and each of the others differs from all six. -/
theorem sixCommandWordsDecode : Obligations.SixCommandWordsDecode := by
  refine ⟨decode_encode .hash32, decode_encode .hash64, decode_encode .insert32, decode_encode .insert64,
    decode_encode .setbit, decode_encode .testbit, ?_⟩
  simp [decode_eq_illegal_iff_not_word]

end Sys2Proof
end

section
/-! PROOFS. The digest as a value: its fold taken from the right, its range and its upper half (spec/40_hash.md R112,
R121; spec/10_state.md R25). -/

namespace Sys2Proof.Machine

/-- A digest is extended by the step of one more byte (R112). -/
theorem fnv1a_concat (N : Width) (bs : List Byte) (b : Byte) :
    fnv1a N (bs ++ [b]) = fnvStep N (fnv1a N bs) b :=
  fnv1a_append N bs [b]

theorem fnvBasis_lt (N : Width) : (fnvBasis N).toNat < 2 ^ N.bits := by
  cases N <;> decide

/-- The basis fits the width, and so does every later accumulator, being the result of a step (R121). -/
theorem fnv1a_lt (N : Width) (bs : List Byte) : (fnv1a N bs).toNat < 2 ^ N.bits := by
  induction bs using List.reverseRecOn with
  | nil => exact fnvBasis_lt N
  | append_singleton bs b => rw [fnv1a_concat]; exact fnvStep_lt N _ b

/-- Bits 63:32 of a word below `2 ^ 32` are 0 (R25). -/
theorem upperHalf_eq_zero {v : Word} (h : v.toNat < 2 ^ 32) : v.extractLsb' 32 32 = 0 := by
  apply BitVec.eq_of_toNat_eq
  rw [BitVec.extractLsb'_toNat, Nat.shiftRight_eq_div_pow, Nat.div_eq_of_lt h]
  rfl

/-- Settles O14: the step as naturals at each width, and the fold by its last byte. -/
theorem digestIsTheFoldOfTheStep : Obligations.DigestIsTheFoldOfTheStep :=
  ⟨fun a b => ⟨fnvStep_toNat .w32 a b, fnvStep_toNat .w64 a b⟩, rfl, rfl, fnv1a_concat⟩

end Sys2Proof.Machine
end

section
/-! PROOFS. What a HASH command leaves (spec/40_hash.md R113, R115, R116, R117): its end state where the data span
meets R70, and its digest wherever it runs. -/

namespace Sys2Proof.Machine

/-- A HASH under R70 writes the digest of the span's bytes and STATUS.ERR, the hidden registers and one read of each
byte (R115, R116, R117). -/
theorem exec_hashOf_endState (N : Width) {s : State} (h : DataSpanOk s) :
    ∃ t, exec (hashOf N) s = .next t ∧
      t = { s with
        digest := fnv1a N (s.mem.bytes s.dataBase.toNat s.dataLen.toNat), err := .none
        hidden := t.hidden
        bus := (spanReads s.dataBase.toNat s.dataLen.toNat).reverse ++ s.bus } := by
  rw [exec_hashOf, hashSeq_eq, dataRefusal_none_iff.2 h, underPremise_none]
  exact ⟨_, rfl, rfl⟩

/-- Nothing is read of an empty span, and its digest is the offset basis (R113 (b)). -/
theorem exec_hashOf_of_empty (N : Width) {s : State} (h : s.dataLen = 0) :
    ∃ t, exec (hashOf N) s = .next t ∧
      t = { s with digest := fnvBasis N, err := .none, hidden := t.hidden } := by
  obtain ⟨t, ht, hend⟩ := exec_hashOf_endState N (DataSpanOkAt.of_empty h)
  have hlen : s.dataLen.toNat = 0 := by rw [h]; rfl
  rw [hlen] at hend
  exact ⟨t, ht, hend⟩

/-- A HASH that runs leaves in DIGEST the digest of the span's bytes, whatever the rest of the state (R113 (c)). -/
theorem digest_of_exec_hashOf {N : Width} {s t : State} (ht : exec (hashOf N) s = .next t) :
    t.digest = fnv1a N (s.mem.bytes s.dataBase.toNat s.dataLen.toNat) := by
  rw [exec_hashOf, hashSeq_eq, underPremise_next_iff] at ht
  obtain ⟨-, rfl⟩ := ht
  rfl

/-- HASH32 leaves bits 63:32 of DIGEST 0 (R25, R121). -/
theorem exec_hash32_upperHalf {s t : State} (ht : exec .hash32 s = .next t) : t.digest.extractLsb' 32 32 = 0 := by
  rw [digest_of_exec_hashOf (N := .w32) ht]
  exact upperHalf_eq_zero (fnv1a_lt .w32 _)

/-- Settles O15: the range of a digest at width 32, and that DIGEST holds one. -/
theorem digestOfWidth32FitsInItsLowHalf : Obligations.DigestOfWidth32FitsInItsLowHalf :=
  ⟨fnv1a_lt .w32, fun _ _ => exec_hash32_upperHalf⟩

/-- Settles O20: the end state of a HASH at each width, and the four known digests by evaluation. -/
theorem hashCommandsWriteTheDigestAndNothingElse : Obligations.HashCommandsWriteTheDigestAndNothingElse := by
  refine ⟨fun s h => ?_, fun s h => exec_hashOf_endState .w64 h, rfl, rfl, by decide, by decide⟩
  obtain ⟨t, ht, hend⟩ := exec_hashOf_endState .w32 h
  exact ⟨t, ht, hend, exec_hash32_upperHalf ht⟩

/-- Settles O21: the end state of a HASH of an empty span at each width. -/
theorem hashOfTheEmptySpanIsTheBasis : Obligations.HashOfTheEmptySpanIsTheBasis :=
  fun _ h => ⟨exec_hashOf_of_empty .w32 h, exec_hashOf_of_empty .w64 h⟩

/-- Settles O22: both digests are `fnv1a` of their span's bytes, and these are equal. -/
theorem digestDependsOnTheBytesAlone : Obligations.DigestDependsOnTheBytesAlone := by
  intro N s s' t t' ht ht' hbytes
  rw [digest_of_exec_hashOf ht, digest_of_exec_hashOf ht', hbytes]

end Sys2Proof.Machine
end

section
/-! PROOFS. The bit-array view (spec/41_bitarray.md R131, R134, R135, R137, R139): the index decoder, the end states of
SETBIT and TESTBIT, when they report OutOfRange; and that TESTBIT finds what an INSERT has set (spec/42_insert.md R164). -/

namespace Sys2Proof.Machine

/-! ## The index decoder -/

/-- The mask as a number: the position is below 8, so no bit is shifted out (R131). -/
theorem maskOf_toNat (i : Nat) : (maskOf i).toNat = 2 ^ posOf i := by
  rw [maskOf, ← BitVec.twoPow_eq, BitVec.toNat_twoPow_of_lt (posOf_lt i)]

/-- The comparison of R135 drops the bits that the capacity, a multiple of 8, does not have. -/
theorem le_ushiftRight_three_iff {len i : Word} : len ≤ i >>> 3 ↔ 8 * len.toNat ≤ i.toNat := by
  rw [BitVec.le_def, BitVec.toNat_ushiftRight, Nat.shiftRight_eq_div_pow]
  omega

/-- Settles O23: the decoder's equations, the mask as a number and bit by bit, and the bounds of an index in range. -/
theorem bitIndexDecodesToByteAndPosition : Obligations.BitIndexDecodesToByteAndPosition := by
  refine fun base i => ⟨rfl, (Nat.shiftRight_eq_div_pow i 3).symm, rfl, maskOf_toNat i, fun j => ?mask, rfl,
    fun len hi => ⟨Nat.le_pred_of_lt (byteOf_lt hi), Nat.le_add_right _ _, addrOf_lt hi le_rfl, addrOf_lt hi⟩⟩
  case mask => rw [getLsbD_maskOf, decide_eq_true_iff, posOf]

/-! ## The end states of SETBIT and TESTBIT -/

section Commands

variable {p : Params} {s : State}

theorem setbitSeq_of_outOfRange (h : 8 * s.baLen.toNat ≤ s.bitIdx.toNat) :
    setbitSeq p s = .next (raise .outOfRange s) :=
  setbitSeq_next_iff.2 (.inl ⟨h, rfl⟩)

theorem testbitSeq_of_outOfRange (h : 8 * s.baLen.toNat ≤ s.bitIdx.toNat) :
    testbitSeq p s = .next (raise .outOfRange s) :=
  testbitSeq_next_iff.2 (.inl ⟨h, rfl⟩)

/-- SETBIT in range under R70 reads the byte of the index and writes it back with the bit set (R132, R134). -/
theorem setbitSeq_endState (hi : s.bitIdx.toNat < 8 * s.baLen.toNat) (hok : BitArrayOkAt p s) :
    ∃ t, setbitSeq p s = .next t ∧
      t = { s with
        mem := t.mem, err := .none, hidden := t.hidden
        bus := .write (addrOf s.baBase.toNat s.bitIdx.toNat) (t.mem.read (addrOf s.baBase.toNat s.bitIdx.toNat)) ::
          .read (addrOf s.baBase.toNat s.bitIdx.toNat) :: s.bus } ∧
      t.mem = s.mem.write (addrOf s.baBase.toNat s.bitIdx.toNat)
        (s.mem.read (addrOf s.baBase.toNat s.bitIdx.toNat) ||| maskOf s.bitIdx.toNat) := by
  refine ⟨_, setbitSeq_next_iff.2 (.inr ⟨hi, hok, rfl⟩), ?_, ?_⟩ <;> rw [setBitSeq_eq]
  · simp only [succeed_mem, beginCommand_mem, Memory.read_write_same]
    rfl
  · rfl

/-- TESTBIT in range under R70 reads the byte of the index and puts its bit into TBIT (R136, R137). -/
theorem testbitSeq_endState (hi : s.bitIdx.toNat < 8 * s.baLen.toNat) (hok : BitArrayOkAt p s) :
    ∃ t, testbitSeq p s = .next t ∧
      t = { s with
        tbit := (s.mem.read (addrOf s.baBase.toNat s.bitIdx.toNat)).getLsbD (posOf s.bitIdx.toNat)
        err := .none, hidden := t.hidden
        bus := .read (addrOf s.baBase.toNat s.bitIdx.toNat) :: s.bus } :=
  ⟨_, testbitSeq_next_iff.2 (.inr ⟨hi, hok, rfl⟩), by rw [testBitSeq_eq]; rfl⟩

/-- The shape SETBIT and TESTBIT share reports OutOfRange exactly for an index out of range. -/
theorem rangeChecked_outOfRange_iff {x y : State} (hx : x.err = .outOfRange) (hy : y.err = .none) :
    (∃ t, (if indexOutOfRange s then .next x else underPremise (bitsRefusal p s) y) = .next t ∧
      t.err = .outOfRange) ↔ 8 * s.baLen.toNat ≤ s.bitIdx.toNat := by
  constructor
  · rintro ⟨t, ht, herr⟩
    obtain ⟨hout, -⟩ | ⟨-, -, rfl⟩ := rangeChecked_next_iff.1 ht
    · exact hout
    · exact Err.noConfusion (hy.symm.trans herr)
  · exact fun hout => ⟨x, rangeChecked_next_iff.2 (.inl ⟨hout, rfl⟩), hx⟩

theorem setbitSeq_outOfRange_iff :
    (∃ t, setbitSeq p s = .next t ∧ t.err = .outOfRange) ↔ 8 * s.baLen.toNat ≤ s.bitIdx.toNat :=
  rangeChecked_outOfRange_iff rfl rfl

theorem testbitSeq_outOfRange_iff :
    (∃ t, testbitSeq p s = .next t ∧ t.err = .outOfRange) ↔ 8 * s.baLen.toNat ≤ s.bitIdx.toNat :=
  rangeChecked_outOfRange_iff rfl rfl

/-- An INSERT that succeeds on data with a window has run under R70 and R71 to the end state of R159. -/
theorem insertSeq_success {N : Width} {t : State} {o : Nat} (ht : insertSeq p N s = .next t) (herr : t.err = .none)
    (ho : o < windowCount p s.dataLen.toNat s.wsize.toNat) :
    s.baLen ≠ 0 ∧ InsertOkAt p s ∧
      InsertEndStateFor (fun o => o < windowCount p s.dataLen.toNat s.wsize.toNat) N s t := by
  obtain ⟨-, rfl⟩ | ⟨⟨hw, hl⟩, hpremise, rfl⟩ := insertSeq_next_iff.1 ht
  · exact Err.noConfusion herr
  · have hok : InsertOkAt p s := hpremise.resolve_left fun hnone => Nat.not_lt_zero o (hnone.1 ▸ ho)
    exact ⟨hl, hok, insertWindows_endState p N hw hl hok.2.2⟩

end Commands

/-- Settles O24: the end state in range, with the one byte written read back; out of range the error alone. -/
theorem setbitSetsOneBitOrReportsOutOfRange : Obligations.SetbitSetsOneBitOrReportsOutOfRange := by
  refine ⟨fun s hi hok => ?inRange, fun s hout => ⟨_, setbitSeq_of_outOfRange hout, rfl⟩⟩
  case inRange =>
    obtain ⟨t, ht, hframe, hmem⟩ := setbitSeq_endState hi hok
    refine ⟨t, ht, hframe, ?_, fun a ha => ?_⟩ <;> rw [hmem]
    · exact Memory.read_write_same _ _ _
    · exact Memory.read_write_other ha

/-- Settles O25: the end state in range; out of range the error alone. -/
theorem testbitReadsOneBitOrReportsOutOfRange : Obligations.TestbitReadsOneBitOrReportsOutOfRange :=
  ⟨fun _ hi hok => testbitSeq_endState hi hok, fun _ hout => ⟨_, testbitSeq_of_outOfRange hout, rfl⟩⟩

/-- Settles O26: both commands report OutOfRange exactly for an index out of range, which the byte offset decides. -/
theorem rangeCheckOnTheByteOffsetIsTheSame : Obligations.RangeCheckOnTheByteOffsetIsTheSame := by
  intro s
  rw [le_ushiftRight_three_iff]
  exact ⟨⟨setbitSeq_outOfRange_iff, testbitSeq_outOfRange_iff⟩, State.InvAt.capacity_lt⟩

/-- Settles O27: no index is below a capacity of 0, and R151 refuses a length of 0. -/
theorem zeroCapacityIsOutOfRangeForTheView : Obligations.ZeroCapacityIsOutOfRangeForTheView := by
  intro s hl
  have hout : 8 * s.baLen.toNat ≤ s.bitIdx.toNat := by simp [hl]
  exact ⟨⟨_, setbitSeq_of_outOfRange hout, rfl⟩, ⟨_, testbitSeq_of_outOfRange hout, rfl⟩,
    ⟨_, insertSeq_of_invalid _ .w32 (.inr hl), rfl⟩, ⟨_, insertSeq_of_invalid _ .w64 (.inr hl), rfl⟩⟩

/-- Settles O38: the window is one the INSERT processed, so its bit is 1 in the end state of R159. -/
theorem insertLeavesNoFalseNegatives : Obligations.InsertLeavesNoFalseNegatives := by
  intro N s t o ht herr ho
  rw [exec_insertOf] at ht
  obtain ⟨hl, hok, hend⟩ := insertSeq_success ht herr ((lt_windowCount_complete_iff rfl).2 ho)
  exact hend.testbit_window (Nat.pos_of_ne_zero (word_toNat_ne_zero.2 hl)) (hend.insertOkAt hok).2.1
    ((lt_windowCount_complete_iff rfl).2 ho)

end Sys2Proof.Machine
end

section
/-! PROOFS. The window offsets and the reduction (spec/42_insert.md R152, R153). -/

namespace Sys2Proof.Machine

theorem mem_offsets_iff {p : Params} {n w o : Nat} : o ∈ offsets p n w ↔ o < windowCount p n w := List.mem_range

/-- Data shorter than a window has no offset, with either bound (R152). -/
theorem offsets_of_lt (p : Params) {n w : Nat} (h : n < w) : offsets p n w = [] := by
  rw [offsets, windowCount, if_pos h, List.range_zero]

theorem windowCount_complete {p : Params} (hp : p.legacyBound = false) {n w : Nat} (h : w ≤ n) :
    windowCount p n w = n - w + 1 := by
  rw [windowCount, if_neg (Nat.not_lt.2 h), hp, if_neg Bool.false_ne_true]

theorem windowCount_legacy {p : Params} (hp : p.legacyBound = true) {n w : Nat} (h : w ≤ n) :
    windowCount p n w = n - w := by
  rw [windowCount, if_neg (Nat.not_lt.2 h), if_pos hp]

/-- Settles O30: the offsets are those below the number of windows, and each bound gives that number. -/
theorem windowOffsetsAreAllLegalOnes : Obligations.WindowOffsetsAreAllLegalOnes := by
  refine fun aw h n w _ => ⟨fun hshort => ?short, fun hfits => ?fits, fun o => ?complete, fun o => ?legacy⟩
  case short => exact ⟨offsets_of_lt _ hshort, offsets_of_lt _ hshort⟩
  case fits =>
    exact ⟨congrArg List.range (windowCount_complete rfl hfits), congrArg List.range (windowCount_legacy rfl hfits)⟩
  case complete => exact mem_offsets_iff.trans (lt_windowCount_complete_iff rfl)
  case legacy => exact mem_offsets_iff.trans (lt_windowCount_legacy_iff rfl)

theorem reduce_lt (d : Word) {cap : Nat} (h : 0 < cap) : (reduce d cap).toNat < cap := by
  rw [reduce_toNat]
  exact Nat.mod_lt _ h

theorem reduce_of_lt {d : Word} {cap : Nat} (h : d.toNat < cap) : reduce d cap = d :=
  BitVec.eq_of_toNat_eq (by rw [reduce_toNat, Nat.mod_eq_of_lt h])

/-- The reduction by a power of two keeps the low bits (R153). -/
theorem getLsbD_reduce_two_pow (d : Word) (k b : Nat) :
    (reduce d (2 ^ k)).getLsbD b = (decide (b < k) && d.getLsbD b) := by
  rw [BitVec.getLsbD, reduce_toNat, Nat.testBit_mod_two_pow, BitVec.getLsbD]

/-- Settles O31: the remainder of natural numbers fits a word, and the consequences are those of a remainder. -/
theorem reductionIsTheRemainderByTheCapacity : Obligations.ReductionIsTheRemainderByTheCapacity := by
  refine fun d len hlen => ⟨reduce_toNat d _, reduce_lt d (by rw [capacity]; omega), reduce_of_lt, fun k hk b => ?_⟩
  rw [capacity, hk]
  exact getLsbD_reduce_two_pow d k b

end Sys2Proof.Machine
end

section
/-! PROOFS. What an INSERT of this hardware answers: its preconditions and its end state (spec/42_insert.md R151,
R159). -/

namespace Sys2Proof.Machine

/-- Settles O32: R151 is judged before everything else. -/
theorem insertChecksItsPreconditionsFirst : Obligations.InsertChecksItsPreconditionsFirst :=
  fun _ h => ⟨⟨_, insertSeq_of_invalid _ .w32 h, rfl⟩, ⟨_, insertSeq_of_invalid _ .w64 h, rfl⟩⟩

/-- The end state of an INSERT of this hardware under its premises (R152, R159). -/
theorem exec_insertOf_endState (N : Width) {s : State} (hw : s.wsize ≠ 0) (hl : s.baLen ≠ 0) (hok : InsertOk s) :
    ∃ t, exec (insertOf N) s = .next t ∧ InsertEndState N s t := by
  have hend := insertWindows_endState Config.params N hw hl hok.2.2
  simp only [lt_windowCount_complete_iff (p := Config.params) rfl] at hend
  exact ⟨_, (exec_insertOf N s).trans (insertSeq_next N hw hl hok), hend⟩

/-- Settles O34: the end state at each width. -/
theorem insertUnitesTheWindowBits : Obligations.InsertUnitesTheWindowBits :=
  fun _ hw hl hok => ⟨exec_insertOf_endState .w32 hw hl hok, exec_insertOf_endState .w64 hw hl hok⟩

end Sys2Proof.Machine
end

section
/-! PROOFS. The accesses of an INSERT, counted (spec/42_insert.md R154, R160): a count that every window shares is
multiplied by the number of windows; each window makes its reads of the data, one read and one write of the array. -/

namespace Sys2Proof.Machine

/-- What holds of the accesses of every window that can be taken, in whatever memory it is taken, is counted once for
each window of the loop. -/
theorem insertLoop_countP (N : Width) (db w bb cap k : Nat) (s : State) (h : w < 2 ^ 64)
    (hk : s.hidden.off.toNat + k < 2 ^ 64) :
    ∃ new, (insertLoop N db w bb cap k s).bus = new ++ s.bus ∧
      ∀ (q : Access → Bool) (c : Nat),
        (∀ m o, o < s.hidden.off.toNat + k → (windowAccesses N m db w bb cap o).countP q = c) →
          new.countP q = k * c := by
  induction k generalizing s with
  | zero => exact ⟨[], rfl, fun q c _ => by rw [List.countP_nil, Nat.zero_mul]⟩
  | succ k ih =>
    have hoff : (insertStep N db w bb cap s).hidden.off.toNat = s.hidden.off.toNat + 1 := by
      rw [insertStep_eq N db w bb cap s h, off_succ hk]
    obtain ⟨new, hbus, hcount⟩ := ih (insertStep N db w bb cap s) (by omega)
    refine ⟨new ++ windowAccesses N s.mem db w bb cap s.hidden.off.toNat, ?_, fun q c hq => ?_⟩
    · rw [insertLoop, hbus, insertStep_bus N db w bb cap s h, List.append_assoc]
    · rw [List.countP_append, hcount q c fun m o ho => hq m o (by omega), hq s.mem _ (by omega), Nat.succ_mul]

section Window

variable {s : State} (N : Width) (m : Memory) {o : Nat}

/-- The accesses of the window of `s` at offset `o`, taken in the memory `m`. -/
def accessesAt (N : Width) (s : State) (m : Memory) (o : Nat) : List Access :=
  windowAccesses N m s.dataBase.toNat s.wsize.toNat s.baBase.toNat (8 * s.baLen.toNat) o

/-- Beside the reads of the window stand one write and one read of one byte of the array. -/
theorem accessesAt_eq (hl : 0 < s.baLen.toNat) : ∃ a v, InBitArray s a ∧
    accessesAt N s m o = .write a v :: .read a :: (spanReads (s.dataBase.toNat + o) s.wsize.toNat).reverse :=
  ⟨_, _, inBitArray_addrOf (Nat.mod_lt _ (by omega)), rfl⟩

variable (hd : SpansDisjoint s) (ho : o + s.wsize.toNat ≤ s.dataLen.toNat)

include hd ho

/-- The reads of a window lie in the data, and so, by R71, not in the array. -/
theorem windowReads_inData {x : Access} (hx : x ∈ (spanReads (s.dataBase.toNat + o) s.wsize.toNat).reverse) :
    x.isWrite = false ∧ InDataSpan s x.addr ∧ ¬InBitArray s x.addr := by
  obtain ⟨hread, hlo, hhi⟩ := spanReads_inside (List.mem_reverse.1 hx)
  have hdata : InDataSpan s x.addr := ⟨by omega, by omega⟩
  exact ⟨hread, hdata, hd _ hdata⟩

variable (hl : 0 < s.baLen.toNat)

include hl

theorem accessesAt_dataReads :
    (accessesAt N s m o).countP (fun x => !x.isWrite && decide (InDataSpan s x.addr)) = s.wsize.toNat := by
  obtain ⟨a, v, ha, heq⟩ := accessesAt_eq N m hl (o := o)
  have hnot : ¬InDataSpan s a := fun hdata => hd a hdata ha
  rw [heq, List.countP_cons_of_neg (by simp [Access.isWrite]),
    List.countP_cons_of_neg (by simp [Access.addr, hnot]), List.countP_eq_length.2 fun x hx => ?_,
    List.length_reverse, spanReads, List.length_map, List.length_range]
  obtain ⟨hread, hdata, -⟩ := windowReads_inData hd ho hx
  rw [hread, decide_eq_true hdata, Bool.not_false, Bool.and_self]

theorem accessesAt_arrayReads :
    (accessesAt N s m o).countP (fun x => !x.isWrite && decide (InBitArray s x.addr)) = 1 := by
  obtain ⟨a, v, ha, heq⟩ := accessesAt_eq N m hl (o := o)
  rw [heq, List.countP_cons_of_neg (by simp [Access.isWrite]), List.countP_cons_of_pos (by exact decide_eq_true ha),
    List.countP_eq_zero.2 fun x hx => ?_]
  obtain ⟨-, -, hnot⟩ := windowReads_inData hd ho hx
  simp [hnot]

theorem accessesAt_arrayWrites :
    (accessesAt N s m o).countP (fun x => x.isWrite && decide (InBitArray s x.addr)) = 1 := by
  obtain ⟨a, v, ha, heq⟩ := accessesAt_eq N m hl (o := o)
  rw [heq, List.countP_cons_of_pos (by exact decide_eq_true ha), List.countP_cons_of_neg (by simp [Access.isWrite]),
    List.countP_eq_zero.2 fun x hx => ?_]
  obtain ⟨hread, -, -⟩ := windowReads_inData hd ho hx
  simp [hread]

end Window

/-- Settles O35: the counts of one window, times the number of windows. -/
theorem insertAccessCounts : Obligations.InsertAccessCounts := by
  intro N s hw hl hok hfits
  have hcount := windowCount_complete (p := Config.params) rfl hfits
  have hw' := Nat.pos_of_ne_zero (word_toNat_ne_zero.2 hw)
  have hl' := Nat.pos_of_ne_zero (word_toNat_ne_zero.2 hl)
  have hn := s.dataLen.isLt
  have hd : SpansDisjoint s := hok.2.2
  obtain ⟨new, hbus, hnew⟩ := insertLoop_countP N s.dataBase.toNat s.wsize.toNat s.baBase.toNat
    (8 * s.baLen.toNat) (s.dataLen.toNat - s.wsize.toNat + 1) (beginCommand s) s.wsize.isLt
    (by rw [beginCommand_off]; omega)
  have hwindow {o : Nat} (ho : o < (beginCommand s).hidden.off.toNat + (s.dataLen.toNat - s.wsize.toNat + 1)) :
      o + s.wsize.toNat ≤ s.dataLen.toNat := by
    rw [beginCommand_off] at ho
    omega
  refine ⟨_, new, (exec_insertOf N s).trans (insertSeq_next N hw hl hok), ?bus, ?length,
    hnew _ _ fun m o ho => accessesAt_dataReads N m hd (hwindow ho) hl', ?arrayReads, ?arrayWrites⟩
  case bus => rw [insertWindows, hcount, capacity, hbus, beginCommand_bus]
  case length =>
    rw [← List.countP_true]
    exact hnew _ _ fun m o _ => by rw [List.countP_true, windowAccesses_length]
  case arrayReads =>
    simpa only [Nat.mul_one] using hnew _ _ fun m o ho => accessesAt_arrayReads N m hd (hwindow ho) hl'
  case arrayWrites =>
    simpa only [Nat.mul_one] using hnew _ _ fun m o ho => accessesAt_arrayWrites N m hd (hwindow ho) hl'

end Sys2Proof.Machine
end

section
/-! PROOFS. The two widths agree in the five low bits of a digest, and an array of at most 32 bits, a power of two, sees
no other bit of it (spec/40_hash.md R120, spec/42_insert.md R153, R154). -/

namespace Sys2Proof.Machine

/-! ## The five low bits of a digest -/

/-- Both primes are 19 modulo 32, and both moduli are multiples of 32 (R110, R120). -/
theorem fnvStep_mod_32 (N : Width) (a : Word) (b : Byte) :
    (fnvStep N a b).toNat % 32 = (a.toNat % 32 ^^^ b.toNat % 32) * 19 % 32 := by
  have hdvd : 32 ∣ 2 ^ N.bits := by cases N <;> decide
  have hprime : N.prime % 32 = 19 := by cases N <;> rfl
  have hxor : (a.toNat ^^^ b.toNat) % 32 = a.toNat % 32 ^^^ b.toNat % 32 := Nat.xor_mod_two_pow (n := 5)
  rw [fnvStep_toNat, Nat.mod_mod_of_dvd _ hdvd, Nat.mul_mod, hprime, hxor]

theorem fnv1a_mod_32 (bs : List Byte) : (fnv1a .w32 bs).toNat % 32 = (fnv1a .w64 bs).toNat % 32 := by
  induction bs using List.reverseRecOn with
  | nil => rfl
  | append_singleton bs b ih => rw [fnv1a_concat, fnv1a_concat, fnvStep_mod_32, fnvStep_mod_32, ih]

theorem windowIndex_width {cap : Nat} (hcap : cap ∣ 32) (m : Memory) (db w o : Nat) :
    windowIndex .w32 m db w cap o = windowIndex .w64 m db w cap o := by
  rw [windowIndex, windowIndex, ← Nat.mod_mod_of_dvd _ hcap, fnv1a_mod_32, Nat.mod_mod_of_dvd _ hcap]

/-! ## The window loops side by side -/

/-- The states differ at most in the hidden registers other than OFF, which the window loop reads on. -/
def SameButScratch (s t : State) : Prop := SameButHidden s t ∧ t.hidden.off = s.hidden.off

section Loops

variable {db w bb cap : Nat} (hw : w < 2 ^ 64) (hcap : cap ∣ 32) {s t : State}

include hw hcap

theorem SameButScratch.insertStep (h : SameButScratch s t) :
    SameButScratch (insertStep .w32 db w bb cap s) (insertStep .w64 db w bb cap t) := by
  obtain ⟨hst, hoff⟩ := h
  rw [insertStep_eq .w32 db w bb cap s hw, insertStep_eq .w64 db w bb cap t hw, hoff, hst]
  simp only [windowIndex_width hcap]
  exact ⟨rfl, rfl⟩

theorem SameButScratch.insertLoop (k : Nat) (h : SameButScratch s t) :
    SameButScratch (insertLoop .w32 db w bb cap k s) (insertLoop .w64 db w bb cap k t) := by
  induction k generalizing s t with
  | zero => exact h
  | succ k ih => exact ih (h.insertStep hw hcap)

end Loops

/-! ## The commands -/

theorem underPremise_sameButHidden {t u : State} (r : Option Refusal) (h : SameButHidden t u) :
    OutcomesSameButHidden (underPremise r t) (underPremise r u) := by
  cases r with
  | none => exact h
  | some e => exact rfl

/-- The two INSERTs have one outcome where the capacity divides 32, that is, for an array of 1, 2 or 4 bytes. -/
theorem insertSeq_sameButHidden (p : Params) {s : State} (hcap : capacity s.baLen.toNat ∣ 32) :
    OutcomesSameButHidden (insertSeq p .w32 s) (insertSeq p .w64 s) := by
  rw [insertSeq, insertSeq]
  split
  · exact rfl
  · have hstart : SameButScratch (beginCommand s) (beginCommand s) := ⟨rfl, rfl⟩
    obtain ⟨hloop, -⟩ := hstart.insertLoop s.wsize.isLt hcap (db := s.dataBase.toNat) (bb := s.baBase.toNat)
      (windowCount p s.dataLen.toNat s.wsize.toNat)
    exact underPremise_sameButHidden _ (congrArg succeed hloop)

/-- Settles O19: the capacities 8, 16 and 32 divide 32. -/
theorem smallArrayCannotTellTheWidths : Obligations.SmallArrayCannotTellTheWidths := by
  intro s hlen
  have hcap : capacity s.baLen.toNat ∣ 32 := by rcases hlen with h | h | h <;> rw [h] <;> decide
  exact insertSeq_sameButHidden Config.params hcap

end Sys2Proof.Machine
end

section
/-! PROOFS. The register port, one operation at a time (spec/44_host_port.md R180, R181, R183, R184): what each register
presents and stores, and which step issues a command. -/

namespace Sys2Proof.Machine

/-! ## STATUS -/

/-- STATUS is TBIT in bit 2 above ERR in bits 1:0 (R26). -/
theorem statusOf_eq (e : Err) (b : Bool) : statusOf e b = BitVec.ofNat 64 (4 * b.toNat + e.code.toNat) := by
  cases e <;> cases b <;> rfl

@[simp] theorem errField_statusOf (e : Err) (b : Bool) : errField (statusOf e b) = e.code.toNat := by
  cases e <;> cases b <;> rfl

@[simp] theorem tbitField_statusOf (e : Err) (b : Bool) : tbitField (statusOf e b) = b := by
  cases e <;> cases b <;> rfl

/-! ## Unassigned registers -/

theorem regRead_of_unassigned {n : Nat} (h : 9 ≤ n) (s : State) : regRead n s = .refused (.unassignedRegister n) := by
  obtain ⟨k, rfl⟩ := Nat.exists_eq_add_of_le' h
  rfl

theorem regWrite_of_unassigned {n : Nat} (h : 9 ≤ n) (p : Params) (v : Word) (s : State) :
    regWrite p n v s = .refused (.unassignedRegister n) := by
  obtain ⟨k, rfl⟩ := Nat.exists_eq_add_of_le' h
  rfl

/-! ## The steps -/

/-- A write of a command's word to CMD is a step of that command (R184). -/
theorem step_of_cmd {s : State} {v : Word} {rest : List HostOp} {i : Instr} (hp : s.pending = .regWrite 8 v :: rest)
    (hv : decode v = .command i) : step s = exec i { s with pending := rest } := by
  rw [step_of_pending hp, perform_cmd, issue_of_decode hv]

/-- Settles O4: the step performs the write, which issues the command the word decodes to. -/
theorem stepRunsTheIssuedCommand : Obligations.StepRunsTheIssuedCommand :=
  fun _ _ _ _ hp hv _ => step_of_cmd hp hv

/-- Settles O6: each row is the value the register presents, STATUS as the number of its two fields. -/
theorem registerReadAnswersAndChangesNothing : Obligations.RegisterReadAnswersAndChangesNothing := by
  intro s rest n v hrow
  have hvalue : regValue s n = some v := by
    rw [← statusOf_eq] at hrow
    simp only [List.mem_cons, Prod.mk.injEq, List.not_mem_nil, or_false] at hrow
    obtain ⟨rfl, rfl⟩ | ⟨rfl, rfl⟩ | ⟨rfl, rfl⟩ | ⟨rfl, rfl⟩ | ⟨rfl, rfl⟩ | ⟨rfl, rfl⟩ | ⟨rfl, rfl⟩ |
      ⟨rfl, rfl⟩ | ⟨rfl, rfl⟩ := hrow <;> rfl
  rw [step_cons]
  exact regRead_next_iff.2 ⟨v, hvalue, rfl⟩

/-- Settles O7: the step performs the write, by the row of `regWrite` for its register. -/
theorem registerWriteStoresOrIssues : Obligations.RegisterWriteStoresOrIssues := by
  intro s rest v
  simp only [step_cons]
  exact ⟨rfl, rfl, rfl, rfl, rfl, rfl, rfl, rfl, rfl⟩

/-- Settles O9: the step performs the read or the write, which the port refuses. -/
theorem unassignedRegisterIsRefused : Obligations.UnassignedRegisterIsRefused := by
  intro s rest n v hn
  rw [step_cons, step_cons]
  exact ⟨regRead_of_unassigned hn _, regWrite_of_unassigned hn _ v _⟩

end Sys2Proof.Machine
end

section
/-! PROOFS. The runs a call is made of (spec/44_host_port.md R184, R187 to R192): the writes of its operands, the issue
of its command and the reads of its answers, each taken off the front of a longer run. -/

namespace Sys2Proof.Machine

section Runs

variable {s t : State} {rest : List HostOp} {k : Nat}

/-- A write of a command's word to CMD runs the command (R184). -/
theorem run_succ_of_cmd {v : Word} {i : Instr} (hp : s.pending = .regWrite 8 v :: rest) (hv : decode v = .command i)
    (ht : exec i { s with pending := rest } = .next t) :
    Sys2Proof.core.run (k + 1) s = Sys2Proof.core.run k t :=
  run_succ_of_step ((step_of_cmd hp hv).trans ht)

/-- A read of STATUS answers it (R180). -/
theorem run_succ_of_readStatus (hp : s.pending = .regRead 7 :: rest) :
    Sys2Proof.core.run (k + 1) s = Sys2Proof.core.run k (observe (.reg 7 s.status) { s with pending := rest }) :=
  run_succ_of_perform hp (perform_readStatus _)

/-- The operand writes of HASH (R187, R188). -/
theorem run_hashOperands {base len : Word} (hbase : base.toNat < 2 ^ 32) (hlen : len.toNat < 2 ^ 32)
    (hp : s.pending = .regWrite 2 base :: .regWrite 3 len :: rest) :
    Sys2Proof.core.run (k + 2) s =
      Sys2Proof.core.run k { s with pending := rest, dataBase := base, dataLen := len } :=
  (run_succ_of_perform hp (perform_dataBase hbase _)).trans (run_succ_of_perform rfl (perform_dataLen hlen _))

/-- The operand writes that name the bit array (R189 to R192). -/
theorem run_arrayOperands {bb bl : Word} (hbb : bb.toNat < 2 ^ 32) (hbl : bl.toNat < 2 ^ 32)
    (hp : s.pending = .regWrite 0 bb :: .regWrite 1 bl :: rest) :
    Sys2Proof.core.run (k + 2) s = Sys2Proof.core.run k { s with pending := rest, baBase := bb, baLen := bl } :=
  (run_succ_of_perform hp (perform_baBase hbb _)).trans (run_succ_of_perform rfl (perform_baLen hbl _))

/-- A write of the bit index and the issue of a command of the view (R191). -/
theorem run_bitCommand {v i : Word} {c : Instr} (hp : s.pending = .regWrite 5 i :: .regWrite 8 v :: rest)
    (hv : decode v = .command c) (ht : exec c { s with pending := rest, bitIdx := i } = .next t) :
    Sys2Proof.core.run (k + 2) s = Sys2Proof.core.run k t :=
  (run_succ_of_perform hp (perform_bitIdx i _)).trans (run_succ_of_cmd rfl hv ht)

end Runs

theorem decode_hashWord (N : Width) : decode (hashWord N) = .command (hashOf N) := by
  cases N with
  | w32 => exact decode_encode .hash32
  | w64 => exact decode_encode .hash64

theorem decode_insertWord (N : Width) : decode (insertWord N) = .command (insertOf N) := by
  cases N with
  | w32 => exact decode_encode .insert32
  | w64 => exact decode_encode .insert64

end Sys2Proof.Machine
end

section
/-! PROOFS. The bit-array view at the port (spec/41_bitarray.md R132, R134, R137, R138; spec/44_host_port.md R191): what
SETBIT and TESTBIT do to the bits of the array, and the calls `setBit` and `testBit`. -/

namespace Sys2Proof.Machine

/-- A bit of the array after one write of the set sequence: set before, or the bit of the index (R132). -/
theorem bitAt_setBit (m : Memory) (base i j : Nat) :
    bitAt (m.write (addrOf base i) (m.read (addrOf base i) ||| maskOf i)) base j = true ↔
      bitAt m base j = true ∨ i = j := by
  have hindex : base + j / 8 = addrOf base i ∧ j % 8 = posOf i ↔ i = j := by
    rw [addrOf_posOf_iff (Nat.mod_lt j (by omega)), Nat.div_add_mod]
  rw [bitAt, getLsbD_setBit, Bool.or_eq_true, decide_eq_true_iff, hindex]
  rfl

section Commands

variable {s : State}

/-- SETBIT in range under R70 sets the bit of the index in the array and no other (R132, R134). -/
theorem exec_setbit_bits (hi : s.bitIdx.toNat < 8 * s.baLen.toNat) (hok : BitArrayOk s) :
    ∃ m h b, exec .setbit s = .next { s with mem := m, err := .none, hidden := h, bus := b } ∧
      ∀ j, bitAt m s.baBase.toNat j = true ↔ bitAt s.mem s.baBase.toNat j = true ∨ s.bitIdx.toNat = j := by
  obtain ⟨t, ht, hframe, hmem⟩ := setbitSeq_endState hi hok
  exact ⟨t.mem, _, _, ht.trans (congrArg _ hframe), fun j => by rw [hmem]; exact bitAt_setBit _ _ _ _⟩

/-- TESTBIT in range under R70 puts the bit of the index into TBIT (R136, R137). -/
theorem exec_testbit_bit (hi : s.bitIdx.toNat < 8 * s.baLen.toNat) (hok : BitArrayOk s) :
    ∃ h b, exec .testbit s = .next
      { s with tbit := bitAt s.mem s.baBase.toNat s.bitIdx.toNat, err := .none, hidden := h, bus := b } := by
  obtain ⟨t, ht, hframe⟩ := testbitSeq_endState hi hok
  exact ⟨_, _, ht.trans (congrArg _ hframe)⟩

end Commands

/-- A SETBIT issued at the port sets the bit of its index in the array and no other (R132, R134). -/
theorem run_setBit {s : State} {rest : List HostOp} {i : Word} (hok : BitArrayOk s) (hi : i.toNat < 8 * s.baLen.toNat)
    (hp : s.pending = .regWrite 5 i :: .regWrite 8 0x03 :: rest) (k : Nat) :
    ∃ m h b, Sys2Proof.core.run (k + 2) s = Sys2Proof.core.run k
        { s with pending := rest, bitIdx := i, mem := m, err := .none, hidden := h, bus := b } ∧
      ∀ j, bitAt m s.baBase.toNat j = true ↔ bitAt s.mem s.baBase.toNat j = true ∨ i.toNat = j := by
  obtain ⟨m, h, b, ht, hbits⟩ := exec_setbit_bits (s := { s with pending := rest, bitIdx := i }) hi hok
  exact ⟨m, h, b, run_bitCommand hp (decode_encode .setbit) ht, hbits⟩

/-- The port operations that issue a SETBIT for each index (R191). -/
def issueSetBits (is : List Word) : List HostOp := is.flatMap fun i => [.regWrite 5 i, .regWrite 8 0x03]

/-- Settles O29, by induction on the indices: each SETBIT adds its own bit and keeps the array and its premise. -/
theorem runOfSetbitsIsAUnion : Obligations.RunOfSetbitsIsAUnion := by
  intro is
  induction is with
  | nil =>
    intro s rest _ _ hp
    exact ⟨s, run_zero s, hp, fun j _ => by simp⟩
  | cons i is ih =>
    intro s rest hok hrange hp
    obtain ⟨hi, his⟩ := List.forall_mem_cons.1 hrange
    obtain ⟨m, h, b, hfirst, hbits⟩ := run_setBit (rest := issueSetBits is ++ rest) hok hi hp (2 * is.length)
    obtain ⟨t, hlater, hpending, hunion⟩ := ih
      { s with pending := issueSetBits is ++ rest, bitIdx := i, mem := m, err := .none, hidden := h, bus := b }
      rest hok his rfl
    refine ⟨t, hfirst.trans hlater, hpending, fun j hj => ?_⟩
    rw [List.exists_mem_cons_iff, ← or_assoc, ← hbits j]
    exact hunion j hj

/-- The operand writes and the command of `testBit` put the bit of the index into TBIT (R191). -/
theorem run_issueTestBit {s : State} {rest : List HostOp} {bb bl i : Word} (hbb : bb.toNat < 2 ^ 32)
    (hbl : bl.toNat < 2 ^ 32) (hi : i.toNat < 8 * bl.toNat) (hok : BitArrayOk { s with baBase := bb, baLen := bl })
    (hp : s.pending = issueTestBit bb bl i ++ rest) (k : Nat) :
    ∃ h b, Sys2Proof.core.run (k + 4) s = Sys2Proof.core.run k
      { s with
        pending := rest, baBase := bb, baLen := bl, bitIdx := i, tbit := bitAt s.mem bb.toNat i.toNat
        err := .none, hidden := h, bus := b } := by
  obtain ⟨h, b, ht⟩ := exec_testbit_bit
    (s := { s with pending := rest, baBase := bb, baLen := bl, bitIdx := i }) hi hok
  exact ⟨h, b, (run_arrayOperands hbb hbl hp).trans (run_bitCommand rfl (decode_encode .testbit) ht)⟩

/-- Settles O55: the operand writes, the command, and its STATUS read back. -/
theorem bitCallsSetAndAnswerTheBit : Obligations.BitCallsSetAndAnswerTheBit := by
  refine fun s rest bb bl i hbb hbl hi hok => ⟨fun hp => ?setBit, fun hp => ?testBit⟩
  case setBit =>
    obtain ⟨m, h, b, hset, hbits⟩ := run_setBit (rest := .regRead 7 :: rest)
      (s := { s with pending := .regWrite 5 i :: .regWrite 8 0x03 :: .regRead 7 :: rest, baBase := bb, baLen := bl })
      hok hi rfl 1
    exact ⟨_, _, (run_arrayOperands hbb hbl hp).trans (hset.trans (run_succ_of_readStatus rfl)), rfl, rfl,
      errField_statusOf _ _, (hbits _).2 (.inr rfl)⟩
  case testBit =>
    obtain ⟨h, b, hrun⟩ := run_issueTestBit (rest := .regRead 7 :: .regRead 7 :: rest) hbb hbl hi hok hp 2
    exact ⟨_, _, hrun.trans ((run_succ_of_readStatus rfl).trans (run_succ_of_readStatus rfl)), rfl, rfl,
      errField_statusOf _ _, tbitField_statusOf _ _, rfl⟩

end Sys2Proof.Machine
end

section
/-! PROOFS. The calls `hash32`, `hash64`, `insertBloom32`, `insertBloom64` and the membership query
(spec/44_host_port.md R187 to R190, R192; spec/42_insert.md R159, R164). -/

namespace Sys2Proof.Machine

/-- A HASH call answers the digest of the buffer, which DIGEST keeps (R187, R188). -/
theorem run_callHash {N : Width} {s : State} {rest : List HostOp} {base len : Word} (hbase : base.toNat < 2 ^ 32)
    (hlen : len.toNat < 2 ^ 32) (hok : DataSpanOk { s with dataBase := base, dataLen := len })
    (hp : s.pending = callHash N base len ++ rest) (k : Nat) :
    ∃ t, Sys2Proof.core.run (k + 4) s = Sys2Proof.core.run k t ∧
      t = { s with
        pending := rest, dataBase := base, dataLen := len
        digest := fnv1a N (s.mem.bytes base.toNat len.toNat), err := .none, hidden := t.hidden, bus := t.bus
        observed := .reg 6 (fnv1a N (s.mem.bytes base.toNat len.toNat)) :: s.observed } := by
  obtain ⟨t, ht, hend⟩ := exec_hashOf_endState N
    (s := { s with pending := .regRead 6 :: rest, dataBase := base, dataLen := len }) hok
  rw [hend] at ht
  exact ⟨_, (run_hashOperands hbase hlen hp).trans ((run_succ_of_cmd rfl (decode_hashWord N) ht).trans
    (run_succ_of_perform rfl (perform_readDigest _))), rfl⟩

/-- Settles O53: the state the call ends in. -/
theorem hashCallAnswersTheDigest : Obligations.HashCallAnswersTheDigest := by
  intro N s rest base len hbase hlen hok hp
  obtain ⟨t, hrun, hend⟩ := run_callHash hbase hlen hok hp 0
  exact ⟨t, hrun, by rw [hend], by rw [hend], by rw [hend]⟩

/-- The end state of R159 asks nothing of what the host is still to do. -/
theorem InsertEndStateFor.withPending {W : Nat → Prop} {N : Width} {s t : State} (h : InsertEndStateFor W N s t)
    (rest : List HostOp) : InsertEndStateFor W N { s with pending := rest } { t with pending := rest } := by
  obtain ⟨hframe, hbits, houtside⟩ := h
  exact ⟨congrArg (popPending rest) hframe, hbits, houtside⟩

/-- Settles O54: the operand writes, the INSERT to the end state of R159, and its STATUS read back. -/
theorem insertCallInsertsAndAnswersNoError : Obligations.InsertCallInsertsAndAnswersNoError := by
  intro N s rest bb bl db dl w hbb hbl hdb hdl hw hw0 hbl0 hok hp
  obtain ⟨t, ht, hend⟩ := exec_insertOf_endState N (s := { s with
    pending := .regRead 7 :: rest, baBase := bb, baLen := bl, dataBase := db, dataLen := dl, wsize := w }) hw0 hbl0 hok
  have hrun : Sys2Proof.core.run 7 s = .next (observe (.reg 7 t.status) { t with pending := rest }) :=
    (run_arrayOperands hbb hbl hp).trans ((run_hashOperands hdb hdl rfl).trans
      ((run_succ_of_perform rfl (perform_wsize hw _)).trans
        ((run_succ_of_cmd rfl (decode_insertWord N) ht).trans
          (run_succ_of_readStatus (by rw [hend.1])))))
  have hobserved : t.observed = s.observed := by rw [hend.1]
  have herr : t.err = .none := by rw [hend.1]
  refine ⟨_, { t with pending := rest }, t.status, hrun, ?answer, ?noError, hend.withPending rest⟩
  case answer => rw [observe, hobserved]
  case noError =>
    rw [State.status, errField_statusOf, herr]
    rfl

/-- The bit of a window the INSERT processed is 1 (R164), by the index the host computes for the query (R192). -/
theorem InsertEndStateFor.bitAt_queryIndex {W : Nat → Prop} {N : Width} {s t : State} (h : InsertEndStateFor W N s t)
    (hl : 0 < s.baLen.toNat) {o : Nat} (ho : W o) :
    bitAt t.mem s.baBase.toNat (queryIndex (fnv1a N (windowAt s o)) s.baLen).toNat = true := by
  rw [queryIndex, reduce_toNat]
  exact h.window_bit hl ho

/-- Settles O56: the hash call answers the window's digest, whose bit the INSERT has set, and the test answers it. -/
theorem queryFindsEveryInsertedWindow : Obligations.QueryFindsEveryInsertedWindow := by
  intro N s t rest o q hinv ht herr ho hq hspan hbytes
  rw [exec_insertOf] at ht
  have hwindow := (lt_windowCount_complete_iff (p := Config.params) rfl).2 ho
  obtain ⟨hl, hok, hend⟩ := insertSeq_success ht herr hwindow
  have hl' := Nat.pos_of_ne_zero (word_toNat_ne_zero.2 hl)
  have hindex : (queryIndex (fnv1a N (windowAt s o)) s.baLen).toNat < 8 * s.baLen.toNat :=
    reduce_lt _ (by rw [capacity]; omega)
  obtain ⟨u, hhash, hu⟩ := run_callHash (N := N)
    (s := { t with pending := callQuery N s.baBase s.baLen q s.wsize (fnv1a N (windowAt s o)) ++ rest })
    (rest := issueTestBit s.baBase s.baLen (queryIndex (fnv1a N (windowAt s o)) s.baLen) ++ .regRead 7 :: rest)
    hq hinv.wsize hspan rfl 5
  rw [hbytes] at hu
  have harray : BitArrayOk { u with baBase := s.baBase, baLen := s.baLen } := by
    rw [hu, hend.1]
    exact hok.2.1
  obtain ⟨h, b, htest⟩ := run_issueTestBit hinv.baBase hinv.baLen hindex harray (by rw [hu]) 1
  have hmem : u.mem = t.mem := by rw [hu]
  have hobserved : u.observed = .reg 6 (fnv1a N (windowAt s o)) :: t.observed := by rw [hu]
  refine ⟨_, _, hhash.trans (htest.trans (run_succ_of_readStatus rfl)), congrArg _ hobserved,
    errField_statusOf _ _, (tbitField_statusOf _ _).trans ?_⟩
  rw [hmem]
  exact hend.bitAt_queryIndex hl' hwindow

end Sys2Proof.Machine
end

section
/-! PROOFS. Which error each command ends with (spec/60_exceptions.md R200, R203, R204): one function of the state the
command starts from says it for all six, and its values are the causes. -/

namespace Sys2Proof.Machine

/-- The STATUS.ERR a command that runs ends with, from the operands it starts with (R134, R137, R151, R200). -/
def commandErr (s : State) : Instr → Err
  | .hash32 | .hash64 => .none
  | .insert32 | .insert64 => if s.wsize = 0 ∨ s.baLen = 0 then .invalidArgument else .none
  | .setbit | .testbit => if 8 * s.baLen.toNat ≤ s.bitIdx.toNat then .outOfRange else .none

section Commands

variable {p : Params} {N : Width} {s t : State} {i : Instr}

/-! ## The error of each sequence -/

theorem hashSeq_err (ht : hashSeq p N s = .next t) : t.err = .none := by
  obtain ⟨-, rfl⟩ := hashSeq_next_iff.1 ht
  exact succeed_err _

theorem insertSeq_err (ht : insertSeq p N s = .next t) :
    t.err = if s.wsize = 0 ∨ s.baLen = 0 then .invalidArgument else .none := by
  obtain ⟨hargs, rfl⟩ | ⟨hvalid, -, rfl⟩ := insertSeq_next_iff.1 ht
  · rw [raise_err, if_pos hargs]
  · rw [succeed_err, if_neg (not_or.2 hvalid)]

/-- The shape SETBIT and TESTBIT share ends with OutOfRange or, in range, with success. -/
theorem rangeChecked_err {x : State}
    (ht : (if indexOutOfRange s then .next (raise .outOfRange s) else underPremise (bitsRefusal p s) (succeed x)) =
      .next t) : t.err = if 8 * s.baLen.toNat ≤ s.bitIdx.toNat then .outOfRange else .none := by
  obtain ⟨hout, rfl⟩ | ⟨hin, -, rfl⟩ := rangeChecked_next_iff.1 ht
  · rw [raise_err, if_pos hout]
  · rw [succeed_err, if_neg (Nat.not_le.2 hin)]

theorem runCommand_err (ht : runCommand p i s = .next t) : t.err = commandErr s i := by
  cases i with
  | hash32 | hash64 => exact hashSeq_err ht
  | insert32 | insert64 => exact insertSeq_err ht
  | setbit | testbit => exact rangeChecked_err ht

/-! ## The causes -/

/-- A command that checks its operands ends with an error exactly where they fail the check and the error is its own. -/
theorem checkedErr_eq_iff {c : Prop} [Decidable c] {own e : Err} (he : e ≠ .none) :
    (if c then own else .none) = e ↔ c ∧ own = e := by
  rw [ite_eq_iff, or_iff_left fun hnone => he hnone.2.symm]

theorem commandErr_invalidArgument_iff :
    commandErr s i = .invalidArgument ↔ (i = .insert32 ∨ i = .insert64) ∧ (s.wsize = 0 ∨ s.baLen = 0) := by
  cases i with
  | hash32 | hash64 => simp [commandErr]
  | insert32 | insert64 | setbit | testbit => simp [commandErr, checkedErr_eq_iff, -ite_eq_left_iff]

theorem commandErr_outOfRange_iff :
    commandErr s i = .outOfRange ↔ (i = .setbit ∨ i = .testbit) ∧ 8 * s.baLen.toNat ≤ s.bitIdx.toNat := by
  cases i with
  | hash32 | hash64 => simp [commandErr]
  | insert32 | insert64 | setbit | testbit => simp [commandErr, checkedErr_eq_iff]

theorem commandErr_ne_illegalCommand : commandErr s i ≠ .illegalCommand := by
  cases i with
  | hash32 | hash64 => exact nofun
  | insert32 | insert64 | setbit | testbit => simp [commandErr, checkedErr_eq_iff]

/-- An issue ends with IllegalCommand exactly for a reserved word: no command does (R203). -/
theorem issue_illegalCommand_iff {v : Word} (ht : issue p v s = .next t) :
    t.err = .illegalCommand ↔ decode v = .illegal := by
  cases hd : decode v with
  | command i =>
    rw [issue, hd] at ht
    simp [runCommand_err ht, commandErr_ne_illegalCommand]
  | illegal =>
    rw [issue_of_illegal hd] at ht
    cases ht
    simp

/-! ## Short input -/

/-- An INSERT without a window whose spans are disjoint succeeds and only starts (R152, R155, R204). -/
theorem insertSeq_of_no_window (p : Params) (N : Width) (hw : s.wsize ≠ 0) (hl : s.baLen ≠ 0)
    (hcount : windowCount p s.dataLen.toNat s.wsize.toNat = 0) (hd : SpansDisjoint s) :
    insertSeq p N s = .next (succeed (beginCommand s)) :=
  insertSeq_next_iff.2 (.inr ⟨⟨hw, hl⟩, .inl ⟨hcount, hd⟩, by rw [insertWindows_of_no_window N hcount]⟩)

end Commands

/-- Settles O33: data shorter than a window has none, and the start of a command writes hidden registers alone. -/
theorem shortInputInsertIsANoOp : Obligations.ShortInputInsertIsANoOp := by
  intro s hw hl hshort hd
  have hw' := Nat.pos_of_ne_zero (word_toNat_ne_zero.2 hw)
  have hcount := (windowCount_eq_zero_iff hw').2 hshort
  exact ⟨⟨_, insertSeq_of_no_window _ .w32 hw hl hcount hd, rfl⟩,
    ⟨_, insertSeq_of_no_window _ .w64 hw hl hcount hd, rfl⟩⟩

/-- Settles O39: the error of every command is `commandErr`, and an issue adds the one of a reserved word. -/
theorem errorsHaveExactlyTheirCauses : Obligations.ErrorsHaveExactlyTheirCauses := by
  refine ⟨⟨rfl, rfl, rfl, rfl⟩, fun i s t ht => ?_, fun v s t => issue_illegalCommand_iff⟩
  rw [← runCommand_params] at ht
  rw [runCommand_err ht]
  exact ⟨commandErr_invalidArgument_iff, commandErr_outOfRange_iff, commandErr_ne_illegalCommand⟩

end Sys2Proof.Machine
end

section
/-! PROOFS. The machine between operations and a reset during a command (spec/70_reset_and_hazards.md R231, R232). -/

namespace Sys2Proof.Machine

/-- Settles O5: a step with an empty list of operations is the idle step. -/
theorem idleMachineStaysAsItIs : Obligations.IdleMachineStaysAsItIs := fun _ => step_of_idle

/-- A reset during an issue is refused whatever the engine, the word and the state: the word is never decoded (R232). -/
theorem perform_issueWithReset (p : Params) (v : Word) (s : State) :
    perform p (.issueWithReset v) s = .refused .resetDuringCommand := rfl

/-- Settles O13: the step performs the issue that the reset cuts short, which is refused. -/
theorem resetDuringCommandIsRefused : Obligations.ResetDuringCommandIsRefused :=
  fun s rest v => (step_cons s (.issueWithReset v) rest).trans (perform_issueWithReset _ v _)

end Sys2Proof.Machine
end

section
/-! PROOFS. The step as a function of the accumulator and of the byte (spec/40_hash.md R110, R111, R118, R119): the prime
has an inverse modulo `2 ^ N`, so the step can be undone; and the product with the prime as shifts and additions. -/

namespace Sys2Proof.Machine

/-! ## The step undone -/

/-- The inverse of the prime modulo `2 ^ N`; there is one since the prime is odd (R110). -/
def Width.primeInverse : Width → Nat
  | .w32 => 899433627
  | .w64 => 14886173955864302971

theorem Width.prime_mul_primeInverse (N : Width) : N.prime * N.primeInverse ≡ 1 [MOD 2 ^ N.bits] := by
  cases N <;> decide

theorem mul_mod_mul_mod_of_inverse {p q m x : Nat} (hpq : p * q ≡ 1 [MOD m]) (hx : x < m) : x * p % m * q % m = x :=
  calc x * p % m * q % m = x * (p * q) % m := by rw [Nat.mod_mul_mod, Nat.mul_assoc]
    _ = x * 1 % m := hpq.mul_left x
    _ = x := by rw [Nat.mul_one, Nat.mod_eq_of_lt hx]

/-- The product with the prime modulo `2 ^ N` is undone by the product with the inverse. -/
theorem Width.mul_prime_mod_eq_iff (N : Width) {x y : Nat} (hx : x < 2 ^ N.bits) (hy : y < 2 ^ N.bits) :
    x * N.prime % 2 ^ N.bits = y ↔ x = y * N.primeInverse % 2 ^ N.bits := by
  have hinv := N.prime_mul_primeInverse
  constructor
  · rintro rfl
    exact (mul_mod_mul_mod_of_inverse hinv hx).symm
  · rintro rfl
    exact mul_mod_mul_mod_of_inverse (Nat.mul_comm _ _ ▸ hinv) hy

theorem xor_byte_lt (N : Width) {x : Nat} (hx : x < 2 ^ N.bits) (b : Byte) : x ^^^ b.toNat < 2 ^ N.bits :=
  Nat.xor_lt_two_pow hx (lt_of_lt_of_le b.isLt (Nat.pow_le_pow_right (by omega) (by cases N <;> decide)))

/-- What a step that gives `c` has XORed: the product undone. -/
theorem fnvStep_eq_iff (N : Width) {a c : Word} (b : Byte) (ha : a.toNat < 2 ^ N.bits) (hc : c.toNat < 2 ^ N.bits) :
    fnvStep N a b = c ↔ a.toNat ^^^ b.toNat = c.toNat * N.primeInverse % 2 ^ N.bits := by
  rw [← BitVec.toNat_inj, fnvStep_toNat, N.mul_prime_mod_eq_iff (xor_byte_lt N ha b) hc]

/-- The step is injective in the byte (R118). -/
theorem fnvStep_byte_inj (N : Width) {a : Word} {b c : Byte} (ha : a.toNat < 2 ^ N.bits)
    (h : fnvStep N a b = fnvStep N a c) : b = c := by
  have hlt := fnvStep_lt N a c
  have hxor : a.toNat ^^^ b.toNat = a.toNat ^^^ c.toNat :=
    ((fnvStep_eq_iff N b ha hlt).1 h).trans ((fnvStep_eq_iff N c ha hlt).1 rfl).symm
  exact BitVec.eq_of_toNat_eq (Nat.xor_right_inj.1 hxor)

/-- The accumulator from which the step of the byte `b` gives `c`. -/
def fnvUnstep (N : Width) (c : Word) (b : Byte) : Word :=
  BitVec.ofNat 64 (c.toNat * N.primeInverse % 2 ^ N.bits ^^^ b.toNat)

theorem fnvUnstep_toNat (N : Width) (c : Word) (b : Byte) :
    (fnvUnstep N c b).toNat = c.toNat * N.primeInverse % 2 ^ N.bits ^^^ b.toNat := by
  have hlt := xor_byte_lt N (Nat.mod_lt (c.toNat * N.primeInverse) (Nat.two_pow_pos N.bits)) b
  exact Nat.mod_eq_of_lt (lt_of_lt_of_le hlt (Nat.pow_le_pow_right (by omega) (by cases N <;> decide)))

theorem fnvUnstep_lt (N : Width) (c : Word) (b : Byte) : (fnvUnstep N c b).toNat < 2 ^ N.bits := by
  rw [fnvUnstep_toNat]
  exact xor_byte_lt N (Nat.mod_lt _ (Nat.two_pow_pos _)) b

/-- The step of a byte is a bijection on the values of the width, with `fnvUnstep` its inverse (R118). -/
theorem fnvStep_eq_iff_unstep (N : Width) {a c : Word} (b : Byte) (ha : a.toNat < 2 ^ N.bits)
    (hc : c.toNat < 2 ^ N.bits) : fnvStep N a b = c ↔ a = fnvUnstep N c b := by
  rw [fnvStep_eq_iff N b ha hc, ← BitVec.toNat_inj, fnvUnstep_toNat]
  constructor
  · intro h
    rw [← h, Nat.xor_xor_cancel_right]
  · intro h
    rw [h, Nat.xor_xor_cancel_right]

theorem fnvStep_acc_inj (N : Width) {a a' : Word} {b : Byte} (ha : a.toNat < 2 ^ N.bits) (ha' : a'.toNat < 2 ^ N.bits)
    (h : fnvStep N a b = fnvStep N a' b) : a = a' := by
  have hlt := fnvStep_lt N a' b
  exact ((fnvStep_eq_iff_unstep N b ha hlt).1 h).trans ((fnvStep_eq_iff_unstep N b ha' hlt).1 rfl).symm

/-- Equal bytes never bring different accumulators together (R118). -/
theorem foldl_fnvStep_inj (N : Width) (bs : List Byte) {a a' : Word} (ha : a.toNat < 2 ^ N.bits)
    (ha' : a'.toNat < 2 ^ N.bits) (h : bs.foldl (fnvStep N) a = bs.foldl (fnvStep N) a') : a = a' := by
  induction bs generalizing a a' with
  | nil => exact h
  | cons b bs ih => exact fnvStep_acc_inj N ha ha' (ih (fnvStep_lt N a b) (fnvStep_lt N a' b) h)

theorem fnv1a_append_cons (N : Width) (xs ys : List Byte) (b : Byte) :
    fnv1a N (xs ++ b :: ys) = ys.foldl (fnvStep N) (fnvStep N (fnv1a N xs) b) :=
  fnv1a_append N xs (b :: ys)

/-- Settles O16: the step is undone by `fnvUnstep`; the byte that differs separates the accumulators, and the equal
bytes after it keep them apart. -/
theorem changingOneByteChangesTheDigest : Obligations.ChangingOneByteChangesTheDigest := by
  refine ⟨fun N b c hc => ⟨fnvUnstep N c b, ⟨fnvUnstep_lt N c b, ?inverse⟩, fun a ha => ?unique⟩,
    fun N a b c => fnvStep_byte_inj N, fun N xs ys b c hbc heq => hbc ?position, by decide, by decide⟩
  case inverse => exact (fnvStep_eq_iff_unstep N b (fnvUnstep_lt N c b) hc).2 rfl
  case unique => exact (fnvStep_eq_iff_unstep N b ha hc).1
  case position =>
    rw [fnv1a_append_cons, fnv1a_append_cons] at heq
    exact fnvStep_byte_inj N (fnv1a_lt N xs) (foldl_fnvStep_inj N ys (fnvStep_lt N _ b) (fnvStep_lt N _ c) heq)

/-! ## The product by shifts -/

theorem mul_prime_w32 (x : Nat) :
    x * Width.w32.prime = x + (x <<< 1) + (x <<< 4) + (x <<< 7) + (x <<< 8) + (x <<< 24) := by
  simp only [Nat.shiftLeft_eq, Width.prime]
  omega

theorem mul_prime_w64 (x : Nat) :
    x * Width.w64.prime = x + (x <<< 1) + (x <<< 4) + (x <<< 5) + (x <<< 7) + (x <<< 8) + (x <<< 40) := by
  simp only [Nat.shiftLeft_eq, Width.prime]
  omega

/-- At width 64 the step is a product of words, which is taken modulo `2 ^ 64` anyway (R111). -/
theorem fnvStep_w64_eq_mul (a : Word) (b : Byte) :
    fnvStep .w64 a b = BitVec.ofNat 64 ((a ^^^ b.setWidth 64).toNat * Width.w64.prime) := by
  have hb : (b.setWidth 64).toNat = b.toNat := BitVec.toNat_setWidth_of_le (by omega)
  refine BitVec.eq_of_toNat_eq ?_
  rw [fnvStep_toNat, BitVec.toNat_ofNat, BitVec.toNat_xor, hb]
  rfl

theorem ofNat_shiftLeft_toNat (x : Word) (k : Nat) : BitVec.ofNat 64 (x.toNat <<< k) = x <<< k := rfl

/-- Settles O17: the equation of each prime on natural numbers, under the modulus of each width and in words. -/
theorem shiftAndAddFormGivesTheSameProduct : Obligations.ShiftAndAddFormGivesTheSameProduct := by
  refine ⟨fun x => ⟨by rw [mul_prime_w32]; rfl, by rw [mul_prime_w64]; rfl⟩, fun a b => ?w32, fun a b => ?w64⟩
  case w32 =>
    rw [fnvStep_toNat, mul_prime_w32]
    rfl
  case w64 =>
    rw [fnvStep_w64_eq_mul, mul_prime_w64]
    simp only [BitVec.ofNat_add, ofNat_shiftLeft_toNat, BitVec.ofNat_toNat, BitVec.setWidth_eq]

/-! ## The two widths compared -/

/-- Settles O18: the five low bits agree for all bytes; the digests of one sequence differ in the sixth. -/
theorem widthsAgreeInFiveLowBits : Obligations.WidthsAgreeInFiveLowBits :=
  ⟨fnv1a_mod_32, by decide, by decide⟩

end Sys2Proof.Machine
end

section
/-! PROOFS. SETBIT and TESTBIT together (spec/41_bitarray.md R138): the two commands from one state with any bit index,
and the laws of the memory operation they share. -/

namespace Sys2Proof.Machine

/-! ## Setting one bit of memory -/

/-- Memory after the set sequence for bit index `i` of the array at `base` (R132). -/
def Memory.setBit (m : Memory) (base i : Nat) : Memory :=
  m.write (addrOf base i) (m.read (addrOf base i) ||| maskOf i)

theorem Memory.getLsbD_read_setBit (m : Memory) (base i a j : Nat) :
    ((m.setBit base i).read a).getLsbD j =
      ((m.read a).getLsbD j || decide (a = addrOf base i ∧ j = posOf i)) :=
  getLsbD_setBit m base i a j

/-- A set twice is a set once (R138 (c)). -/
theorem Memory.read_setBit_setBit_same (m : Memory) (base i a : Nat) :
    ((m.setBit base i).setBit base i).read a = (m.setBit base i).read a := by
  refine BitVec.eq_of_getLsbD_eq fun j _ => ?_
  rw [Memory.getLsbD_read_setBit, Memory.getLsbD_read_setBit, Bool.or_assoc, Bool.or_self]

/-- Two sets commute (R138 (d)). -/
theorem Memory.read_setBit_comm (m : Memory) (base i j a : Nat) :
    ((m.setBit base i).setBit base j).read a = ((m.setBit base j).setBit base i).read a := by
  refine BitVec.eq_of_getLsbD_eq fun b _ => ?_
  simp only [Memory.getLsbD_read_setBit, Bool.or_right_comm]

/-! ## The commands -/

/-- What SETBIT of the index `i` leaves of `s`, but for the hidden registers `h` and the accesses `b` (R134). -/
def afterSetbit (s : State) (i : Word) (h : Hidden) (b : List Access) : State :=
  { s with bitIdx := i, mem := s.mem.setBit s.baBase.toNat i.toNat, err := .none, hidden := h, bus := b }

section Commands

variable {s : State} {i : Word} (hok : BitArrayOk s) (hi : i.toNat < 8 * s.baLen.toNat)

include hok hi

theorem exec_setbit_at : ∃ h b, exec .setbit { s with bitIdx := i } = .next (afterSetbit s i h b) := by
  obtain ⟨t, ht, hframe, hmem⟩ := setbitSeq_endState (s := { s with bitIdx := i }) hi hok
  rw [hmem] at hframe
  exact ⟨_, _, ht.trans (congrArg _ hframe)⟩

theorem exec_testbit_at : ∃ u, exec .testbit { s with bitIdx := i } = .next u ∧
    u.tbit = bitAt s.mem s.baBase.toNat i.toNat := by
  obtain ⟨h, b, ht⟩ := exec_testbit_bit (s := { s with bitIdx := i }) hi hok
  exact ⟨_, ht, rfl⟩

end Commands

/-- Settles O28: SETBIT keeps the operands and the premise, so that the next command runs; the laws are those of
`Memory.setBit`. -/
theorem setAndTestObeyTheirLaws : Obligations.SetAndTestObeyTheirLaws := by
  intro s i j hok hi hj
  obtain ⟨h, b, hset⟩ := exec_setbit_at hok hi
  have hok' : BitArrayOk (afterSetbit s i h b) := hok
  refine ⟨_, hset, ?setThenTest, fun hne => ?locality, ?idempotence, ?commutation⟩
  case setThenTest =>
    obtain ⟨u, hu, htbit⟩ := exec_testbit_at hok' hi
    exact ⟨u, hu, htbit.trans ((bitAt_setBit _ _ _ _).2 (.inr rfl))⟩
  case locality =>
    obtain ⟨u, hu, htbit⟩ := exec_testbit_at hok hj
    obtain ⟨u', hu', htbit'⟩ := exec_testbit_at hok' hj
    have hbit := bitAt_setBit s.mem s.baBase.toNat i.toNat j.toNat
    rw [or_iff_left fun heq => hne (BitVec.eq_of_toNat_eq heq.symm)] at hbit
    exact ⟨u, u', hu, hu', htbit'.trans ((Bool.eq_iff_iff.2 hbit).trans htbit.symm)⟩
  case idempotence =>
    obtain ⟨_, _, hagain⟩ := exec_setbit_at hok' hi
    exact ⟨_, hagain, Memory.read_setBit_setBit_same _ _ _⟩
  case commutation =>
    obtain ⟨_, _, hthenOther⟩ := exec_setbit_at hok' hj
    obtain ⟨h', b', hother⟩ := exec_setbit_at hok hj
    obtain ⟨_, _, hotherThen⟩ := exec_setbit_at (s := afterSetbit s j h' b') hok hi
    exact ⟨_, _, _, hother, hthenOther, hotherThen, Memory.read_setBit_comm _ _ _ _⟩

end Sys2Proof.Machine
end

section
/-! PROOFS. Two INSERTs into one array (spec/42_insert.md R159, R163 (a), (f)): an INSERT adds the bits of its windows to
memory, the next one those of its own, and the windows of neither depend on the bits the other has set. -/

namespace Sys2Proof.Machine

/-- An INSERT keeps memory canonical. -/
theorem insertSeq_keeps_wf {p : Params} {N : Width} {s t : State} (hs : s.mem.wf = true)
    (ht : insertSeq p N s = .next t) : t.mem.wf = true := by
  obtain ⟨-, rfl⟩ | ⟨-, -, rfl⟩ := insertSeq_next_iff.1 ht
  · exact hs
  · exact insertLoop_wf N _ _ _ _ _ (beginCommand s) s.wsize.isLt hs

/-- Settles O36: the second INSERT changes no byte, and two canonical memories with the same bytes are one list. -/
theorem insertTwiceIsInsertOnce : Obligations.InsertTwiceIsInsertOnce := by
  intro N s hw hl hok
  have ht := insertSeq_next N hw hl hok
  obtain ⟨u, hu, hread⟩ := (insertWindows_endState Config.params N hw hl hok.2.2).insertSeq_again hw hl hok
  refine ⟨_, u, (exec_insertOf N s).trans ht, (exec_insertOf N _).trans hu, hread, fun hwf => ?_⟩
  have hwft := insertSeq_keeps_wf hwf ht
  exact Memory.ext_of_wf (insertSeq_keeps_wf hwft hu) hwft hread

/-! ## Different data -/

/-- The state with the data span and the window size of another INSERT. -/
def withData (s : State) (base len w : Word) : State := { s with dataBase := base, dataLen := len, wsize := w }

/-- Bit `j` of the byte at `a` is the one a window of the data of `s` sets (R153, R159). -/
def IsWindowBit (N : Width) (s : State) (a j : Nat) : Prop :=
  ∃ o, o + s.wsize.toNat ≤ s.dataLen.toNat ∧
    a = addrOf s.baBase.toNat ((fnv1a N (windowAt s o)).toNat % (8 * s.baLen.toNat)) ∧
    j = posOf ((fnv1a N (windowAt s o)).toNat % (8 * s.baLen.toNat))

/-- The memory `m'` is `m` with the bits `P` allows set in addition. -/
def AddsBits (P : Nat → Nat → Prop) (m m' : Memory) : Prop :=
  ∀ a j, (m'.read a).getLsbD j = true ↔ (m.read a).getLsbD j = true ∨ P a j

/-- An INSERT under its premises adds the bits of its windows, and changes no operand and no byte outside the array. -/
theorem exec_insertOf_adds (N : Width) {s : State} (hw : s.wsize ≠ 0) (hl : s.baLen ≠ 0) (hok : InsertOk s) :
    ∃ m h b, exec (insertOf N) s = .next { s with mem := m, err := .none, hidden := h, bus := b } ∧
      AddsBits (IsWindowBit N s) s.mem m ∧ ∀ a, ¬InBitArray s a → m.read a = s.mem.read a := by
  have ht := (exec_insertOf N s).trans (insertSeq_next N hw hl hok)
  obtain ⟨hframe, -, houtside⟩ := insertWindows_endState Config.params N hw hl hok.2.2
  exact ⟨_, _, _, ht.trans (congrArg _ hframe), insertWindows_bits N s hw hl hok.2.2, houtside⟩

/-- The bits of the windows are the same in a memory that differs in the array alone (R71). -/
theorem isWindowBit_congr {N : Width} {s : State} (hd : SpansDisjoint s) {m : Memory} {e : Err} {h : Hidden}
    {b : List Access} (hm : ∀ a, ¬InBitArray s a → m.read a = s.mem.read a) (a j : Nat) :
    IsWindowBit N { s with mem := m, err := e, hidden := h, bus := b } a j ↔ IsWindowBit N s a j := by
  have hwindow {o : Nat} (ho : o + s.wsize.toNat ≤ s.dataLen.toNat) :
      m.bytes (s.dataBase.toNat + o) s.wsize.toNat = windowAt s o :=
    Memory.bytes_congr fun c hlo hhi => hm c (hd c ⟨by omega, by omega⟩)
  refine exists_congr fun o => and_congr_right fun ho => ?_
  rw [← hwindow ho]
  rfl

/-- An INSERT of width `N` and then one of width `M` over other data add the bits of the windows of both. -/
theorem exec_insertOf_insertOf_adds (N M : Width) {s : State} {base len w : Word} (hw : s.wsize ≠ 0) (hw' : w ≠ 0)
    (hl : s.baLen ≠ 0) (hok : InsertOk s) (hok' : InsertOk (withData s base len w)) :
    ∃ t u, exec (insertOf N) s = .next t ∧ exec (insertOf M) (withData t base len w) = .next u ∧
      ∀ a j, (u.mem.read a).getLsbD j = true ↔ ((s.mem.read a).getLsbD j = true ∨ IsWindowBit N s a j) ∨
        IsWindowBit M (withData s base len w) a j := by
  obtain ⟨m, h, b, ht, hadds, houtside⟩ := exec_insertOf_adds N hw hl hok
  obtain ⟨m', h', b', hu, hadds', -⟩ := exec_insertOf_adds M
    (s := withData { s with mem := m, err := .none, hidden := h, bus := b } base len w) hw' hl hok'
  refine ⟨_, _, ht, hu, fun a j => ?_⟩
  rw [← hadds a j, ← isWindowBit_congr (s := withData s base len w) hok'.2.2 houtside a j]
  exact hadds' a j

/-- Settles O37: in either order the two INSERTs add the bits of the windows of both. -/
theorem insertsIntoOneArrayCommute : Obligations.InsertsIntoOneArrayCommute := by
  intro N M s base len w hw hw' hl hok hok'
  obtain ⟨t, u, ht, hu, hbits⟩ := exec_insertOf_insertOf_adds N M hw hw' hl hok hok'
  obtain ⟨t', u', ht', hu', hbits'⟩ :=
    exec_insertOf_insertOf_adds M N (s := withData s base len w) hw' hw hl hok' hok
  refine ⟨t, t', u, u', ht, hu, ht', hu', fun a => BitVec.eq_of_getLsbD_eq fun j _ => Bool.eq_iff_iff.2 ?_⟩
  exact (hbits a j).trans (or_right_comm.trans (hbits' a j).symm)

end Sys2Proof.Machine
end

section
/-! PROOFS. A command that fails (spec/60_exceptions.md R206, R207): it has only raised its error. -/

namespace Sys2Proof.Machine

section Commands

variable {p : Params} {N : Width} {s t : State}

/-- An INSERT that fails has failed R151. -/
theorem insertSeq_eq_raise (ht : insertSeq p N s = .next t) (herr : t.err ≠ .none) : t = raise t.err s := by
  obtain ⟨-, rfl⟩ | ⟨-, -, rfl⟩ := insertSeq_next_iff.1 ht
  · rfl
  · exact absurd (succeed_err _) herr

/-- SETBIT or TESTBIT that fails has failed its range check. -/
theorem rangeChecked_eq_raise {x : State}
    (ht : (if indexOutOfRange s then .next (raise .outOfRange s) else underPremise (bitsRefusal p s) (succeed x)) =
      .next t) (herr : t.err ≠ .none) : t = raise t.err s := by
  obtain ⟨-, rfl⟩ | ⟨-, -, rfl⟩ := rangeChecked_next_iff.1 ht
  · rfl
  · exact absurd (succeed_err _) herr

theorem runCommand_eq_raise {i : Instr} (ht : runCommand p i s = .next t) (herr : t.err ≠ .none) :
    t = raise t.err s := by
  cases i with
  | hash32 | hash64 => exact absurd (hashSeq_err ht) herr
  | insert32 | insert64 => exact insertSeq_eq_raise ht herr
  | setbit | testbit => exact rangeChecked_eq_raise ht herr

end Commands

/-- Settles O40: the check that fails comes before everything else a command does. -/
theorem failedCommandOnlySetsErr : Obligations.FailedCommandOnlySetsErr := by
  intro i s t ht herr
  rw [← runCommand_params] at ht
  exact runCommand_eq_raise ht herr

end Sys2Proof.Machine
end

section
/-! PROOFS. The hidden registers are dead between commands (spec/10_state.md R30 to R34): every command writes the ones it
reads before it reads them, and nothing else reads them. -/

namespace Sys2Proof.Machine

/-! ## The window loop -/

/-- A turn of the window loop reads no hidden register but OFF, and writes them all. -/
theorem insertStep_of_off (N : Width) {db w bb cap : Nat} (hw : w < 2 ^ 64) (s : State) {h : Hidden}
    (hoff : h.off = s.hidden.off) : insertStep N db w bb cap { s with hidden := h } = insertStep N db w bb cap s := by
  simp only [insertStep_eq N db w bb cap _ hw, hoff]

/-- The window loop reads no hidden register but OFF; without a window it writes none. -/
theorem insertLoop_of_off (N : Width) {db w bb cap : Nat} (hw : w < 2 ^ 64) (k : Nat) (s : State) {h : Hidden}
    (hoff : h.off = s.hidden.off) :
    SameButHidden (insertLoop N db w bb cap k s) (insertLoop N db w bb cap k { s with hidden := h }) := by
  cases k with
  | zero => exact rfl
  | succ k =>
    rw [insertLoop, insertLoop, insertStep_of_off N hw s hoff]
    exact rfl

/-! ## The commands -/

section Commands

variable (p : Params) (N : Width) (s : State) (h : Hidden)

theorem hashSeq_ignores_hidden : OutcomesSameButHidden (hashSeq p N s) (hashSeq p N { s with hidden := h }) := by
  rw [hashSeq_eq, hashSeq_eq]
  exact underPremise_sameButHidden (dataRefusal p s) rfl

theorem insertSeq_ignores_hidden : OutcomesSameButHidden (insertSeq p N s) (insertSeq p N { s with hidden := h }) := by
  rw [insertSeq_eq, insertSeq_eq]
  split
  · exact rfl
  · have hloop : SameButHidden (insertWindows p N s) (insertWindows p N { s with hidden := h }) :=
      insertLoop_of_off N s.wsize.isLt _ (beginCommand s) rfl
    exact underPremise_sameButHidden _ (congrArg succeed hloop)

theorem setbitSeq_ignores_hidden : OutcomesSameButHidden (setbitSeq p s) (setbitSeq p { s with hidden := h }) := by
  rw [setbitSeq_eq, setbitSeq_eq]
  split
  · exact rfl
  · exact underPremise_sameButHidden (bitsRefusal p s) rfl

theorem testbitSeq_ignores_hidden : OutcomesSameButHidden (testbitSeq p s) (testbitSeq p { s with hidden := h }) := by
  rw [testbitSeq_eq, testbitSeq_eq]
  split
  · exact rfl
  · exact underPremise_sameButHidden (bitsRefusal p s) rfl

theorem runCommand_ignores_hidden (i : Instr) :
    OutcomesSameButHidden (runCommand p i s) (runCommand p i { s with hidden := h }) := by
  cases i with
  | hash32 => exact hashSeq_ignores_hidden p .w32 s h
  | hash64 => exact hashSeq_ignores_hidden p .w64 s h
  | insert32 => exact insertSeq_ignores_hidden p .w32 s h
  | insert64 => exact insertSeq_ignores_hidden p .w64 s h
  | setbit => exact setbitSeq_ignores_hidden p s h
  | testbit => exact testbitSeq_ignores_hidden p s h

theorem issue_ignores_hidden (v : Word) : OutcomesSameButHidden (issue p v s) (issue p v { s with hidden := h }) := by
  cases hd : decode v with
  | command i =>
    rw [issue, issue, hd]
    exact runCommand_ignores_hidden p s h i
  | illegal =>
    rw [issue_of_illegal hd, issue_of_illegal hd]
    exact rfl

end Commands

/-! ## The port and the other agents -/

section Operations

variable (p : Params) (s : State) (h : Hidden)

theorem regRead_ignores_hidden (n : Nat) : OutcomesSameButHidden (regRead n s) (regRead n { s with hidden := h }) := by
  have hvalue : regValue { s with hidden := h } n = regValue s n := rfl
  rw [regRead, regRead, hvalue]
  cases regValue s n with
  | some v => exact rfl
  | none => exact rfl

theorem regWrite_ignores_hidden (n : Nat) (v : Word) :
    OutcomesSameButHidden (regWrite p n v s) (regWrite p n v { s with hidden := h }) := by
  unfold regWrite
  split
  any_goals exact rfl
  exact issue_ignores_hidden p s h v

/-- An access outside the engine asks of the platform alone whether it is made. -/
theorem atPlainAddress_ignores_hidden (a : Nat) {o o' : Host.Outcome State Fault Refusal}
    (ho : OutcomesSameButHidden o o') :
    OutcomesSameButHidden (atPlainAddress p a s o) (atPlainAddress p a { s with hidden := h } o') := by
  unfold atPlainAddress
  split
  · exact rfl
  · cases hk : kindAt s.platform a with
    | plain => exact ho
    | absent => exact rfl
    | device => exact rfl

theorem OutcomesSameButHidden.mapNext {f g : State → State}
    (hfg : ∀ t u, SameButHidden t u → SameButHidden (f t) (g u)) {o o' : Host.Outcome State Fault Refusal}
    (ho : OutcomesSameButHidden o o') : OutcomesSameButHidden (mapNext f o) (mapNext g o') := by
  match o, o', ho with
  | .next t, .next u, ho => exact hfg t u ho
  | .fault _, .fault _, ho => exact ho
  | .refused _, .refused _, ho => exact ho

theorem foreignRead_ignores_hidden (a : Nat) (t u : State) (htu : SameButHidden t u) :
    SameButHidden (foreignRead a s t) (foreignRead a { s with hidden := h } u) := by
  rw [htu]
  exact rfl

theorem perform_ignores_hidden (op : HostOp) :
    OutcomesSameButHidden (perform p op s) (perform p op { s with hidden := h }) := by
  cases op with
  | regRead n => exact regRead_ignores_hidden s h n
  | regWrite n v => exact regWrite_ignores_hidden p s h n v
  | memRead a => exact atPlainAddress_ignores_hidden p s h a rfl
  | memWrite a b => exact atPlainAddress_ignores_hidden p s h a rfl
  | setRegion r => exact rfl
  | reset => exact rfl
  | issueWithReset v => exact rfl
  | issueWithForeignWrite v a b =>
    have hspans : inSpans { s with hidden := h } a = inSpans s a := rfl
    refine atPlainAddress_ignores_hidden p s h a ?_
    rw [hspans]
    split
    · exact rfl
    · exact issue_ignores_hidden p (hostWrite a b s) h v
  | issueWithForeignRead v a =>
    have hread := (issue_ignores_hidden p s h v).mapNext (foreignRead_ignores_hidden s h a)
    exact atPlainAddress_ignores_hidden p s h a hread

theorem stepAt_ignores_hidden : OutcomesSameButHidden (stepAt p s) (stepAt p { s with hidden := h }) := by
  by_cases hp : s.pending = []
  · rw [stepAt_of_idle hp, stepAt_of_idle (s := { s with hidden := h }) hp]
    exact rfl
  · obtain ⟨op, rest, hp⟩ := List.exists_cons_of_ne_nil hp
    rw [stepAt_of_pending hp, stepAt_of_pending (s := { s with hidden := h }) hp]
    exact perform_ignores_hidden p { s with pending := rest } h op

end Operations

/-- Settles O47: a step by the operation it performs, a command by its equation. -/
theorem hiddenRegistersAreDead : Obligations.HiddenRegistersAreDead := by
  intro s h
  refine ⟨stepAt_ignores_hidden Config.params s h, fun i => ?_⟩
  rw [← runCommand_params, ← runCommand_params]
  exact runCommand_ignores_hidden Config.params s h i

end Sys2Proof.Machine
end

section
/-! PROOFS. The accesses of agents outside the engine (spec/20_memory.md R60, R68, R70; spec/70_reset_and_hazards.md R239):
where none can be made, and what one during a command comes to. -/

namespace Sys2Proof.Machine

/-! ## The address of an access -/

section Access

variable {p : Params} {a : Nat} {s : State}

theorem atPlainAddress_of_no_byte (h : 2 ^ p.aw ≤ a ∨ kindAt s.platform a = .absent)
    (t : Host.Outcome State Fault Refusal) : atPlainAddress p a s t = .fault (.noSuchAddress a) := by
  by_cases ha : 2 ^ p.aw ≤ a
  · exact atPlainAddress_of_le ha s t
  · rw [atPlainAddress, if_neg ha, h.resolve_left ha]

theorem atPlainAddress_of_device (ha : a < 2 ^ p.aw) (hk : kindAt s.platform a = .device)
    (t : Host.Outcome State Fault Refusal) : atPlainAddress p a s t = .refused (.deviceAccess a) := by
  rw [atPlainAddress, if_neg (Nat.not_le.2 ha), hk]

theorem atPlainAddress_of_plain (ha : a < 2 ^ p.aw) (hk : kindAt s.platform a = .plain)
    (t : Host.Outcome State Fault Refusal) : atPlainAddress p a s t = t := by
  rw [atPlainAddress, if_neg (Nat.not_le.2 ha), hk]

end Access

/-- Settles O11: all four operations make their access by `atPlainAddress`. -/
theorem hostAccessOutsideMemoryFaults : Obligations.HostAccessOutsideMemoryFaults := by
  intro s rest v a b
  simp only [step_cons]
  refine ⟨fun hnone => ?noByte, fun ha hk => ?device⟩
  case noByte =>
    exact ⟨atPlainAddress_of_no_byte hnone _, atPlainAddress_of_no_byte hnone _, atPlainAddress_of_no_byte hnone _,
      atPlainAddress_of_no_byte hnone _⟩
  case device =>
    exact ⟨atPlainAddress_of_device ha hk _, atPlainAddress_of_device ha hk _, atPlainAddress_of_device ha hk _,
      atPlainAddress_of_device ha hk _⟩

/-! ## The issue of a word, reserved ones among them -/

section Issue

variable {p : Params} {v : Word} {s t : State}

/-- An issued word only sets bits of the array (R79). -/
theorem issue_growsInArray (ht : issue p v s = .next t) : GrowsInArray s t := by
  cases hd : decode v with
  | command i =>
    rw [issue, hd] at ht
    exact runCommand_growsInArray ht
  | illegal =>
    rw [issue_of_illegal hd] at ht
    cases ht
    exact .of_mem_eq rfl

/-- An issued word does the same over memories that agree on the two spans (R60). -/
theorem issue_runsAlike {m : Memory} (hm : AgreeOn (InEitherSpan s) s.mem m) (ht : issue p v s = .next t) :
    RunsAlike (issue p v) s t m := by
  cases hd : decode v with
  | command i =>
    rw [issue, hd] at ht
    obtain ⟨m', ht', hm'⟩ := runCommand_runsAlike hm ht
    exact ⟨m', by rw [issue, hd]; exact ht', hm'⟩
  | illegal =>
    rw [issue_of_illegal hd] at ht
    cases ht
    exact ⟨m, issue_of_illegal hd p _, hm⟩

/-- An issued word answers nobody (R180, R248). -/
theorem issue_observed (ht : issue Config.params v s = .next t) : t.observed = s.observed := by
  cases hd : decode v with
  | command i =>
    rw [issue_of_decode hd] at ht
    obtain ⟨hframe, -⟩ := commandsWriteOnlyTheirResults i s t ht
    rw [hframe]
  | illegal =>
    rw [issue_of_illegal hd] at ht
    cases ht
    rfl

end Issue

/-! ## A write during a command -/

theorem inSpans_iff {s : State} {a : Nat} : inSpans s a = true ↔ InDataSpan s a ∨ InBitArray s a := by
  rw [inSpans, Bool.or_eq_true, decide_eq_true_iff, decide_eq_true_iff]

/-- A byte written outside the spans before the word is issued stays as written, and every other byte is as without the
write: on the spans the two runs agree, elsewhere neither changes a byte (R79, R239). -/
theorem issue_after_hostWrite {p : Params} {v : Word} {s t : State} {a : Nat} (ha : ¬InEitherSpan s a) (b : Byte)
    (ht : issue p v s = .next t) :
    ∃ m, issue p v (hostWrite a b s) = .next { t with mem := m } ∧ m.read a = b ∧
      ∀ c, c ≠ a → m.read c = t.mem.read c := by
  have hspans : AgreeOn (InEitherSpan s) s.mem (s.mem.write a b) :=
    fun c hc => Memory.read_write_other fun heq => ha (heq ▸ hc)
  obtain ⟨m, ht', hm⟩ := issue_runsAlike hspans ht
  have hkept {c : Nat} (hc : ¬InBitArray s c) : m.read c = (s.mem.write a b).read c :=
    (issue_growsInArray ht').keepsOutside c hc
  refine ⟨m, ht', (hkept fun h => ha (.inr h)).trans (Memory.read_write_same _ _ _), fun c hca => ?_⟩
  by_cases hc : InBitArray s c
  · exact hm c (.inr hc)
  · calc m.read c = (s.mem.write a b).read c := hkept hc
      _ = s.mem.read c := Memory.read_write_other hca
      _ = t.mem.read c := ((issue_growsInArray ht).keepsOutside c hc).symm

/-- Settles O51: in a span the write is refused before the word is issued; elsewhere it comes before a command that
does not see it. -/
theorem foreignWriteDuringACommand : Obligations.ForeignWriteDuringACommand := by
  intro s rest v a b ha hk
  have hstep : step { s with pending := .issueWithForeignWrite v a b :: rest } =
      if inSpans s a then .refused .foreignWriteDuringCommand
      else issue Config.params v (hostWrite a b { s with pending := rest }) :=
    (step_cons s _ rest).trans (atPlainAddress_of_plain ha hk _)
  rw [hstep]
  refine ⟨fun hspan => if_pos (inSpans_iff.2 hspan), fun hdata harray t ht => ?elsewhere⟩
  have hout : ¬(InDataSpan s a ∨ InBitArray s a) := not_or.2 ⟨hdata, harray⟩
  obtain ⟨m, ht', hread, hother⟩ := issue_after_hostWrite (s := { s with pending := rest }) hout b ht
  exact ⟨_, (if_neg (mt inSpans_iff.1 hout)).trans ht', rfl, hread, hother⟩

/-! ## A read during a command -/

/-- The byte another agent finds has every bit of the old byte (R239). -/
theorem getLsbD_foreignByte_of_old {draw : Nat} {old new : Byte} {j : Nat} (h : old.getLsbD j = true) :
    (foreignByte draw old new).getLsbD j = true := by
  rw [foreignByte, BitVec.getLsbD_or, h, Bool.true_or]

/-- The byte another agent finds has no bit but those of the old and the new byte (R239). -/
theorem getLsbD_foreignByte {draw : Nat} {old new : Byte} {j : Nat}
    (h : (foreignByte draw old new).getLsbD j = true) : old.getLsbD j = true ∨ new.getLsbD j = true := by
  rw [foreignByte, BitVec.getLsbD_or, BitVec.getLsbD_and, Bool.or_eq_true, Bool.and_eq_true] at h
  exact h.imp_right And.right

/-- Settles O52: the command runs as without the read, and since it only sets bits, those of the old byte are among
those of the new one. -/
theorem foreignReadSeesAByteOnTheWay : Obligations.ForeignReadSeesAByteOnTheWay := by
  intro s t rest v a ha hk ht
  have hread : step { s with pending := .issueWithForeignRead v a :: rest } =
      .next (foreignRead a { s with pending := rest } t) :=
    (step_cons s _ rest).trans
      ((atPlainAddress_of_plain ha hk _).trans (mapNext_next_iff.2 ⟨t, ht, rfl⟩))
  have hones := (issue_growsInArray ht).keepsOnes a
  refine ⟨foreignByte s.draws (s.mem.read a) (t.mem.read a), hread.trans ?_, fun j => getLsbD_foreignByte_of_old,
    fun j hj => (getLsbD_foreignByte hj).elim (hones j) id⟩
  rw [foreignRead, observe, issue_observed ht]

end Sys2Proof.Machine
end
